-- ==== Sys2Proof/Word.lean ====
section
/-! DEFINITION. The machine word. Every datum of this machine is one unsigned byte (00_scope.md R7, 20_memory.md R52):
registers, addresses, immediates, flags, return addresses. `BitVec 8` arithmetic wraps modulo 256 (42_alu.md R125). -/

namespace Sys2Proof

/-- An 8-bit unsigned value, bit 0 the least significant (00_scope.md R7). An address is one too (20_memory.md R50). -/
abbrev Byte := BitVec 8

end Sys2Proof
end

