-- ==== Sys2Proof/Config.lean ====
section
/-! DEFINITION. The implementation parameters of 00_scope.md R5. All have one value on this hardware; the spec leaves no
value of an instruction open, so there is no free value here. -/

namespace Sys2Proof.Config

/-- `NREGS`: number of general registers (R5). -/
def nregs : Nat := 8

/-- `MEM_SIZE`: bytes of memory (R5, 20_memory.md R50). -/
def memSize : Nat := 256

/-- `MEM_FILL`: what a byte of memory that nothing has written reads as (10_state.md R35, decision D4; log 9). -/
def memFill : Byte := 0x00#8

/-- `SP_RESET`: register 7 after reset (R5, R35, decision D23; log 15). -/
def spReset : Byte := 0xF4#8

/-- `PC_RESET`: the entry point (R5, 70_reset_and_hazards.md R211). -/
def pcReset : Byte := 0x00#8

/-- `FL_RESET` (R5, decision D3; log 14). -/
def flReset : Byte := 0x00#8

/-- `LOAD_BASE`: address of the first image byte (R5, 50_host_interface.md R172). -/
def loadBase : Byte := 0x00#8

end Sys2Proof.Config
end

