-- ==== Sys2Proof/Machine/State.lean ====
section
/-! DEFINITION. The state of the machine, whole (10_state.md R20), as plain data, and its value after reset (R35). -/

namespace Sys2Proof.Machine

/-- The eight general registers by name; R7 is the stack pointer (10_state.md R21, R22). -/
inductive Reg where
  | r0 | r1 | r2 | r3 | r4 | r5 | r6 | r7
deriving DecidableEq, Repr

/-- The register file `x[0..7]` (R21). -/
structure RegFile where
  r0 : Byte
  r1 : Byte
  r2 : Byte
  r3 : Byte
  r4 : Byte
  r5 : Byte
  r6 : Byte
  r7 : Byte
deriving DecidableEq, Repr

/-- The causes of a fault (R31, 60_exceptions.md R191). -/
inductive FaultCause where
  /-- A register operand byte of a recognised instruction is above 7 (60_exceptions.md R193, decision D6). -/
  | invalidRegisterIndex
  /-- An operation tag outside ADD, MUL, CMP reaches the ALU; unreachable (60_exceptions.md R194). -/
  | unsupportedAluOp
deriving DecidableEq, Repr

/-- The run state (R31, decision D10; log 16). -/
inductive RunState where
  | idle
  | running
  | halted
  | faulted (c : FaultCause)
deriving DecidableEq, Repr

/-- An unrecognized-instruction report, carrying the opcode byte (R34, 50_host_interface.md R178). -/
inductive Report where
  | unrecognizedOpcode (ir : Byte)
deriving DecidableEq, Repr

/-- The 256-byte memory (R32, 20_memory.md R50): the bytes that differ from `Config.memFill`, addresses strictly rising. -/
abbrev Memory := List Host.Cell

/-- The canonical form of memory: addresses strictly rising, inside the address space, no listed fill byte. -/
abbrev Memory.wf (m : Memory) : Prop :=
  m.Pairwise (fun c d => c.1 < d.1) ∧ ∀ c ∈ m, c.1 < Config.memSize ∧ c.2 ≠ Config.memFill

/-- The complete state of the machine (10_state.md R20). -/
structure State where
  /-- `x[0..7]` -/
  regs : RegFile
  /-- the program counter (R24) -/
  pc : Byte
  /-- the flags register: E bit 0, G bit 1, L bit 2 (R27) -/
  fl : Byte
  /-- the memory array (R32) -/
  mem : Memory
  /-- the run state (R31) -/
  run : RunState
  /-- the bytes emitted by PRN, oldest first (R34) -/
  out : List Byte
  /-- the reports of unrecognized opcodes, oldest first (R34) -/
  reports : List Report
deriving DecidableEq, Repr

/-- Why `step` stops. No instruction's meaning answers with one: a fault of the spec is a next state whose run state is
`faulted c`. `step` raises these where the spec says that no step exists (40_cycle_and_halt.md R91, 10_state.md R31;
log 1). -/
inductive Fault where
  /-- `step` in run state `Idle`: the program has not been started. Safe: nothing is claimed to happen. -/
  | notStarted
  /-- `step` in run state `Halted`: the run has ended normally and no further step exists. Safe. -/
  | halted
  /-- `step` in run state `Faulted(c)`: the run was aborted and no further step exists. Safe. -/
  | faulted (c : FaultCause)
deriving DecidableEq, Repr

/-- Why an instruction has no meaning. -/
inductive Refusal where
  /-- Raised by `exec`'s arm of an instruction that has no meaning yet; none is left. Safe. -/
  | notModelled (mnemonic : String)
deriving DecidableEq, Repr

/-- The outcome of a step of this machine. -/
abbrev Result := Host.Outcome State Fault Refusal

/-- The machine right after reset (R35, 70_reset_and_hazards.md R210): registers zero but the stack pointer, `pc` at the
entry point, flags and memory zero, `Idle`, nothing emitted. -/
def State.reset : State where
  regs := { r0 := 0#8, r1 := 0#8, r2 := 0#8, r3 := 0#8, r4 := 0#8, r5 := 0#8, r6 := 0#8, r7 := Config.spReset }
  pc := Config.pcReset
  fl := Config.flReset
  mem := []
  run := .idle
  out := []
  reports := []

end Sys2Proof.Machine
end

