-- ==== Sys2Proof/Machine/Ops.lean ====
section
/-! DEFINITION. The named operations over registers, memory, `pc`, the run state and the histories: the primitives of
00_scope.md R8, taking a fault, and the stack pointer. -/

namespace Sys2Proof.Machine

/-- `x[i]` of the register file (R8). -/
def RegFile.get (f : RegFile) : Reg → Byte
  | .r0 => f.r0
  | .r1 => f.r1
  | .r2 => f.r2
  | .r3 => f.r3
  | .r4 => f.r4
  | .r5 => f.r5
  | .r6 => f.r6
  | .r7 => f.r7

/-- `x[i] <- v` of the register file (R8). -/
def RegFile.set (f : RegFile) (r : Reg) (v : Byte) : RegFile :=
  match r with
  | .r0 => { f with r0 := v }
  | .r1 => { f with r1 := v }
  | .r2 => { f with r2 := v }
  | .r3 => { f with r3 := v }
  | .r4 => { f with r4 := v }
  | .r5 => { f with r5 := v }
  | .r6 => { f with r6 := v }
  | .r7 => { f with r7 := v }

/-- The byte listed at a numeric address, or the fill byte. -/
def Memory.lookup : Memory → Nat → Byte
  | [], _ => Config.memFill
  | c :: m, k => if c.1 = k then c.2 else Memory.lookup m k

/-- Memory with nothing listed at `k`. -/
def Memory.remove (m : Memory) (k : Nat) : Memory := m.filter (fun c => c.1 != k)

/-- List `v` at `k`, before the first higher address. -/
def Memory.place : Memory → Nat → Byte → Memory
  | [], k, v => [(k, v)]
  | c :: m, k, v => if k < c.1 then (k, v) :: c :: m else c :: Memory.place m k v

/-- `MemRead(addr, 1)` (20_memory.md R55): it cannot fail and has no side effect. -/
def Memory.read (m : Memory) (a : Byte) : Byte := m.lookup a.toNat

/-- `MemWrite(addr, 1, v)` (20_memory.md R55): writing the fill byte unlists the address, so the form stays canonical. -/
def Memory.write (m : Memory) (a v : Byte) : Memory :=
  if v = Config.memFill then m.remove a.toNat else (m.remove a.toNat).place a.toNat v

/-- Read register `r` (R8). -/
def State.reg (s : State) (r : Reg) : Byte := s.regs.get r

/-- Write register `r` (R8). No register is hardwired (10_state.md R21). -/
def State.setReg (s : State) (r : Reg) (v : Byte) : State := { s with regs := s.regs.set r v }

/-- The stack pointer, an alias of register 7 (10_state.md R22). -/
def State.sp (s : State) : Byte := s.reg .r7

/-- `x[7] <- (x[7] - 1) mod 256` (43_stack.md R141). -/
def State.decSp (s : State) : State := s.setReg .r7 (s.sp - 1#8)

/-- `x[7] <- (x[7] + 1) mod 256` (43_stack.md R142). -/
def State.incSp (s : State) : State := s.setReg .r7 (s.sp + 1#8)

/-- Read one byte of memory. -/
def State.memRead (s : State) (a : Byte) : Byte := s.mem.read a

/-- Write one byte of memory. -/
def State.memWrite (s : State) (a v : Byte) : State := { s with mem := s.mem.write a v }

/-- `pc <- t` (R8). -/
def State.setPc (s : State) (t : Byte) : State := { s with pc := t }

/-- `pc <- (pc + k) mod 256` (10_state.md R25, R26). -/
def State.advancePc (s : State) (k : Byte) : State := s.setPc (s.pc + k)

/-- `fl <- v` (R8). -/
def State.setFl (s : State) (v : Byte) : State := { s with fl := v }

/-- `Output(v)`: append to the output stream (R8, 50_host_interface.md R177). -/
def State.emit (s : State) (v : Byte) : State := { s with out := s.out ++ [v] }

/-- `Report(UnrecognizedOpcode, ir)`: the whole effect of a stalled step (40_cycle_and_halt.md R96; log 2). -/
def State.stall (s : State) (ir : Byte) : State := { s with reports := s.reports ++ [.unrecognizedOpcode ir] }

/-- `run <- r`. -/
def State.setRun (s : State) (r : RunState) : State := { s with run := r }

/-- TAKING A FAULT, `raise C(info)`: `run <- Faulted(C)` and no other state changes (R8, 60_exceptions.md R199). Nothing
is saved: `pc` still points at the instruction (log 7). There is no return from a fault; reset alone leaves the state
(60_exceptions.md R200). -/
def State.raise (s : State) (c : FaultCause) : State := s.setRun (.faulted c)

/-- Write bytes at rising addresses from `a`, wrapping at the top of memory. -/
def State.storeBytes (s : State) (a : Byte) : List Byte → State
  | [] => s
  | v :: vs => (s.memWrite a v).storeBytes (a + 1#8) vs

end Sys2Proof.Machine
end

