-- ==== Sys2Proof/Syntax.lean ====
section
/-! DEFINITION. The 13 instructions (00_scope.md R1, 30_encoding.md R76), one constructor per row of the opcode table.
An operand is the whole operand byte (30_encoding.md R72): `a` the byte after the opcode, `b` the one after that. A
register operand byte above 7 is a term of this type too; the instruction then raises `InvalidRegisterIndex` (R75). -/

namespace Sys2Proof

inductive Instr where
  /-- HLT (40_cycle_and_halt.md R94). -/
  | hlt
  /-- LDI a, imm8 (41_load_and_print.md R110). -/
  | ldi (a b : Byte)
  /-- PRN a (R111). -/
  | prn (a : Byte)
  /-- ADD a, b (42_alu.md R122). -/
  | add (a b : Byte)
  /-- MUL a, b (R123). -/
  | mul (a b : Byte)
  /-- CMP a, b (R124). -/
  | cmp (a b : Byte)
  /-- PUSH a (43_stack.md R141). -/
  | push (a : Byte)
  /-- POP a (R142). -/
  | pop (a : Byte)
  /-- CALL a (44_control_transfer.md R151). -/
  | call (a : Byte)
  /-- RET (R152). -/
  | ret
  /-- JMP a (R153). -/
  | jmp (a : Byte)
  /-- JEQ a (R154). -/
  | jeq (a : Byte)
  /-- JNE a (R155). -/
  | jne (a : Byte)
deriving DecidableEq, Repr

end Sys2Proof
end

