-- ==== Sys2Proof/Machine/Flags.lean ====
section
/-! DEFINITION. The flags register and everything computed from it: the compare outcome (42_alu.md R124, R126) and the
conditional-branch resolver with its next-pc multiplexer (44_control_transfer.md R156). -/

namespace Sys2Proof.Machine

/-- The Equal flag, bit 0 (10_state.md R27). -/
def flE (fl : Byte) : Bool := fl.getLsbD 0

/-- The Greater-than flag, bit 1 (10_state.md R27). -/
def flG (fl : Byte) : Bool := fl.getLsbD 1

/-- The Less-than flag, bit 2 (10_state.md R27). -/
def flL (fl : Byte) : Bool := fl.getLsbD 2

/-- The whole flags byte after comparing `va` with `vb`, unsigned (42_alu.md R124, R126; decisions D7, D8; log 14). -/
def compareFlags (va vb : Byte) : Byte :=
  if va = vb then 0b00000001#8
  else if va.toNat < vb.toNat then 0b00000100#8
  else 0b00000010#8

/-- The branch resolver `taken(ir, fl)` (44_control_transfer.md R156). -/
def taken (i : Instr) (fl : Byte) : Bool :=
  match i with
  | .jeq _ => flE fl
  | .jne _ => !flE fl
  | .jmp _ => true
  | .call _ => true
  | .ret => true
  | .hlt => false
  | .ldi _ _ => false
  | .prn _ => false
  | .add _ _ => false
  | .mul _ _ => false
  | .cmp _ _ => false
  | .push _ => false
  | .pop _ => false

/-- The next-pc multiplexer for a conditional jump: the target when taken, else past the two bytes of the jump (R156). -/
def State.branch (s : State) (isTaken : Bool) (target : Byte) : State :=
  if isTaken then s.setPc target else s.advancePc 2#8

end Sys2Proof.Machine
end

