-- ==== Sys2Proof/Machine/Operands.lean ====
section
/-! DEFINITION. Operand forms (30_encoding.md R72, R75). There are two: a register operand byte, checked to be in 0..7
before the handler does anything, and LDI's immediate byte, used as it is. -/

namespace Sys2Proof.Machine

/-- The operand byte that names a register. -/
def Reg.byte : Reg → Byte
  | .r0 => 0#8
  | .r1 => 1#8
  | .r2 => 2#8
  | .r3 => 3#8
  | .r4 => 4#8
  | .r5 => 5#8
  | .r6 => 6#8
  | .r7 => 7#8

/-- The register an operand byte names; none above 7, where nothing is masked (R75, decision D6; log 12). -/
def Reg.ofByte (a : Byte) : Option Reg :=
  match a.toNat with
  | 0 => some .r0
  | 1 => some .r1
  | 2 => some .r2
  | 3 => some .r3
  | 4 => some .r4
  | 5 => some .r5
  | 6 => some .r6
  | 7 => some .r7
  | _ => none

/-- Run a handler on the register that byte `a` names, or raise `InvalidRegisterIndex` with no other effect (R75,
60_exceptions.md R193). -/
def withReg (a : Byte) (s : State) (handler : Reg → Result) : Result :=
  match Reg.ofByte a with
  | some r => handler r
  | none => .next (s.raise .invalidRegisterIndex)

/-- The same for two register operands; one fault covers both (60_exceptions.md R198). -/
def withRegs (a b : Byte) (s : State) (handler : Reg → Reg → Result) : Result :=
  withReg a s fun ra => withReg b s fun rb => handler ra rb

end Sys2Proof.Machine
end

