-- ==== Sys2Proof/Machine/Alu.lean ====
section
/-! DEFINITION. The ALU (42_alu.md R120, R121) and the three handlers that invoke it: ADD, MUL, CMP. -/

namespace Sys2Proof.Machine

/-- The operation tag of the ALU. The type is wider than the three tags so that an unsupported one has its outcome
(R121; log 8). -/
inductive AluTag where
  | add
  | mul
  | cmp
  | unsupported (code : Nat)
deriving DecidableEq, Repr

/-- The ALU: it reads `x[a]` and `x[b]` and writes only `x[a]` (ADD, MUL) or only `fl` (CMP) (R120); any other tag is the
fatal condition `UnsupportedAluOp` (R121). Results wrap modulo 256, no carry is kept (R122, R123, R125). -/
def alu (tag : AluTag) (ra rb : Reg) (s : State) : Except FaultCause State :=
  match tag with
  | .add => .ok (s.setReg ra (s.reg ra + s.reg rb))
  | .mul => .ok (s.setReg ra (s.reg ra * s.reg rb))
  | .cmp => .ok (s.setFl (compareFlags (s.reg ra) (s.reg rb)))
  | .unsupported _ => .error .unsupportedAluOp

/-- An ALU handler: invoke the ALU with the tag and the two operand bytes, then advance `pc` by 3 (R120). -/
def aluHandler (tag : AluTag) (a b : Byte) (s : State) : Result :=
  withRegs a b s fun ra rb =>
    match alu tag ra rb s with
    | .ok t => .next (t.advancePc 3#8)
    | .error c => .next (s.raise c)

/-- ADD a, b (R122). -/
def execAdd (a b : Byte) (s : State) : Result := aluHandler .add a b s

/-- MUL a, b (R123). -/
def execMul (a b : Byte) (s : State) : Result := aluHandler .mul a b s

/-- CMP a, b (R124). -/
def execCmp (a b : Byte) (s : State) : Result := aluHandler .cmp a b s

end Sys2Proof.Machine
end

