-- ==== Sys2Proof/Machine/Stack.lean ====
section
/-! DEFINITION. PUSH and POP (43_stack.md) and the full-descending stack they share with CALL and RET (R140): a push
decrements and then stores, a pop loads and then increments. Effects take place in the order written
(40_cycle_and_halt.md R100, decision D17; log 13). -/

namespace Sys2Proof.Machine

/-- Decrement the stack pointer, then store the byte that `value` gives in the decremented state (R141). -/
def State.pushByte (s : State) (value : State → Byte) : State :=
  s.decSp.memWrite s.decSp.sp (value s.decSp)

/-- PUSH a (R141): `x[a]` is read after the decrement. -/
def execPush (a : Byte) (s : State) : Result :=
  withReg a s fun r => .next ((s.pushByte fun t => t.reg r).advancePc 2#8)

/-- POP a (R142): the increment reads register 7 again after `x[a]` was written. -/
def execPop (a : Byte) (s : State) : Result :=
  withReg a s fun r => .next ((s.setReg r (s.memRead s.sp)).incSp.advancePc 2#8)

end Sys2Proof.Machine
end

