-- ==== Sys2Proof/Machine/Control.lean ====
section
/-! DEFINITION. CALL, RET, JMP, JEQ, JNE (44_control_transfer.md): every target is an absolute address from a register or
the stack (R150), and `pc` is replaced, never also advanced (40_cycle_and_halt.md R98). -/

namespace Sys2Proof.Machine

/-- CALL a (R151): push the address after the CALL, then jump to `x[a]`, read after the decrement. -/
def execCall (a : Byte) (s : State) : Result :=
  withReg a s fun r =>
    let t := s.pushByte fun _ => s.pc + 2#8
    .next (t.setPc (t.reg r))

/-- RET (R152): jump to the byte on top of the stack, then increment the stack pointer. -/
def execRet (s : State) : Result := .next (s.setPc (s.memRead s.sp)).incSp

/-- JMP a (R153). -/
def execJmp (a : Byte) (s : State) : Result :=
  withReg a s fun r => .next (s.setPc (s.reg r))

/-- JEQ a (R154): the register byte is checked whether or not the jump is taken (30_encoding.md R75). -/
def execJeq (a : Byte) (s : State) : Result :=
  withReg a s fun r => .next (s.branch (taken (.jeq a) s.fl) (s.reg r))

/-- JNE a (R155): the exact complement of JEQ. -/
def execJne (a : Byte) (s : State) : Result :=
  withReg a s fun r => .next (s.branch (taken (.jne a) s.fl) (s.reg r))

end Sys2Proof.Machine
end

