-- ==== Sys2Proof/Machine/Data.lean ====
section
/-! DEFINITION. LDI and PRN (41_load_and_print.md). -/

namespace Sys2Proof.Machine

/-- LDI a, imm8 (R110): the immediate byte `b` is stored as it is and never checked. -/
def execLdi (a b : Byte) (s : State) : Result :=
  withReg a s fun r => .next ((s.setReg r b).advancePc 3#8)

/-- PRN a (R111): the engine hands over the 8-bit value. -/
def execPrn (a : Byte) (s : State) : Result :=
  withReg a s fun r => .next ((s.emit (s.reg r)).advancePc 2#8)

end Sys2Proof.Machine
end

