-- ==== Sys2Proof/Machine/Halt.lean ====
section
/-! DEFINITION. HLT (40_cycle_and_halt.md R94). -/

namespace Sys2Proof.Machine

/-- HLT: `run <- Halted`; `pc` keeps the address of the HLT byte (R94, decision D10). -/
def execHlt (s : State) : Result := .next (s.setRun .halted)

end Sys2Proof.Machine
end

