-- ==== Sys2Proof/Decode.lean ====
section
/-! DEFINITION. Decoding and encoding (30_encoding.md R70 to R79). The operand count comes from bits 7..6 of the opcode
byte, dispatch from its whole value. Decoding is total on any list of bytes and rejects by name. -/

namespace Sys2Proof

/-- The 13 handlers the dispatch multiplexer selects from (10_state.md R33, 40_cycle_and_halt.md R93). -/
inductive Handler where
  | hlt | ldi | prn | add | mul | cmp | push | pop | call | ret | jmp | jeq | jne
deriving DecidableEq, Repr

/-- Why bytes do not decode: an opcode value with no handler (R78); fewer operand bytes than the opcode needs; no byte at
all. A fetch of the machine can meet the first only. -/
inductive DecodeReject where
  | unrecognizedOpcode (ir : Byte)
  | truncated (ir : Byte)
  | noBytes
deriving DecidableEq, Repr

/-- The operand count `n = ir[7:6] = ir div 64` (R71, conflict C1). -/
def operandCount (ir : Byte) : Nat := ir.toNat / 64

/-- The opcode table of R76. HLT, LDI, PRN, ADD are printed in the source; the other nine values are the spec's decision
D9 (log 10). -/
def opcodeTable : List (Byte × Handler) :=
  [(0x01#8, .hlt), (0x82#8, .ldi), (0x47#8, .prn), (0xA0#8, .add), (0xA2#8, .mul), (0xA7#8, .cmp), (0x45#8, .push),
   (0x46#8, .pop), (0x50#8, .call), (0x11#8, .ret), (0x54#8, .jmp), (0x55#8, .jeq), (0x56#8, .jne)]

/-- The dispatch multiplexer: the handler registered for an opcode value, or none (R78, 40_cycle_and_halt.md R93). -/
def dispatch (ir : Byte) : Option Handler := opcodeTable.lookup ir

/-- Format OP0: no operand byte (R70). -/
def takeOp0 (i : Instr) (rest : List Byte) : Except DecodeReject (Instr × List Byte) := .ok (i, rest)

/-- Format OP1: one operand byte (R70, R72). -/
def takeOp1 (ir : Byte) (mk : Byte → Instr) : List Byte → Except DecodeReject (Instr × List Byte)
  | a :: rest => .ok (mk a, rest)
  | [] => .error (.truncated ir)

/-- Format OP2: two operand bytes, in address order (R70, R72). -/
def takeOp2 (ir : Byte) (mk : Byte → Byte → Instr) : List Byte → Except DecodeReject (Instr × List Byte)
  | a :: b :: rest => .ok (mk a b, rest)
  | [_] => .error (.truncated ir)
  | [] => .error (.truncated ir)

/-- The operand bytes a handler takes, by the format of its row (R70). -/
def assemble (ir : Byte) (h : Handler) (bs : List Byte) : Except DecodeReject (Instr × List Byte) :=
  match h with
  | .hlt => takeOp0 .hlt bs
  | .ldi => takeOp2 ir .ldi bs
  | .prn => takeOp1 ir .prn bs
  | .add => takeOp2 ir .add bs
  | .mul => takeOp2 ir .mul bs
  | .cmp => takeOp2 ir .cmp bs
  | .push => takeOp1 ir .push bs
  | .pop => takeOp1 ir .pop bs
  | .call => takeOp1 ir .call bs
  | .ret => takeOp0 .ret bs
  | .jmp => takeOp1 ir .jmp bs
  | .jeq => takeOp1 ir .jeq bs
  | .jne => takeOp1 ir .jne bs

/-- Read one instruction off the front of a list of bytes, lowest address first; the bytes after it come back. -/
def decode : List Byte → Except DecodeReject (Instr × List Byte)
  | [] => .error .noBytes
  | ir :: bs =>
    match dispatch ir with
    | none => .error (.unrecognizedOpcode ir)
    | some h => assemble ir h bs

/-- The handler of an instruction. -/
def Instr.handler : Instr → Handler
  | .hlt => .hlt
  | .ldi _ _ => .ldi
  | .prn _ => .prn
  | .add _ _ => .add
  | .mul _ _ => .mul
  | .cmp _ _ => .cmp
  | .push _ => .push
  | .pop _ => .pop
  | .call _ => .call
  | .ret => .ret
  | .jmp _ => .jmp
  | .jeq _ => .jeq
  | .jne _ => .jne

/-- The operand bytes of an instruction in address order (R72). -/
def Instr.operands : Instr → List Byte
  | .hlt => []
  | .ldi a b => [a, b]
  | .prn a => [a]
  | .add a b => [a, b]
  | .mul a b => [a, b]
  | .cmp a b => [a, b]
  | .push a => [a]
  | .pop a => [a]
  | .call a => [a]
  | .ret => []
  | .jmp a => [a]
  | .jeq a => [a]
  | .jne a => [a]

/-- The opcode byte of a handler, from the binary column of R76. -/
def Handler.opcode : Handler → Byte
  | .hlt => 0b00000001#8
  | .ldi => 0b10000010#8
  | .prn => 0b01000111#8
  | .add => 0b10100000#8
  | .mul => 0b10100010#8
  | .cmp => 0b10100111#8
  | .push => 0b01000101#8
  | .pop => 0b01000110#8
  | .call => 0b01010000#8
  | .ret => 0b00010001#8
  | .jmp => 0b01010100#8
  | .jeq => 0b01010101#8
  | .jne => 0b01010110#8

/-- The bytes of an instruction, lowest address first (R70). -/
def encode (i : Instr) : List Byte := i.handler.opcode :: i.operands

/-- The three bytes that a word of `nbits` bits of the opcode table stands for: bits 7..0 the first byte, 15..8 the
second, 23..16 the third, every bit above `nbits` zero. -/
def tableBytes (nbits w : Nat) : List Byte :=
  let v := w % 2 ^ nbits
  [BitVec.ofNat 8 v, BitVec.ofNat 8 (v / 256), BitVec.ofNat 8 (v / 65536)]

/-- The instruction the decoder reads from a word numbered as spec/opcode_table.json numbers it. -/
def decodeTableWord (nbits w : Nat) : Option Instr :=
  match decode (tableBytes nbits w) with
  | .ok (i, _) => some i
  | .error _ => none

end Sys2Proof
end

