-- ==== Sys2Proof/Machine/Fetch.lean ====
section
/-! DEFINITION. Fetching an instruction's bytes (40_cycle_and_halt.md R91, 30_encoding.md R72). -/

namespace Sys2Proof.Machine

/-- The instruction register of the step: the byte at `pc` (10_state.md R30). -/
def State.ir (s : State) : Byte := s.memRead s.pc

/-- The opcode byte and the operand bytes its bits 7..6 ask for, in address order, addresses wrapping at the top of memory
(10_state.md R26). An opcode with count 3 is unrecognized whatever follows, so no third operand byte is read (30_encoding.md
R73; log 17). -/
def State.fetchBytes (s : State) : List Byte :=
  match operandCount s.ir with
  | 0 => [s.ir]
  | 1 => [s.ir, s.memRead (s.pc + 1#8)]
  | _ => [s.ir, s.memRead (s.pc + 1#8), s.memRead (s.pc + 2#8)]

/-- What the running engine does with the bytes it has fetched: the handler of the instruction they decode to
(`handle`), or the stall. A fetch holds every operand byte its opcode needs, so the only rejection it can meet is the
unrecognized opcode (R91 step 3, R96). -/
def State.dispatchFetched (s : State) (handle : Instr → State → Result) : Result :=
  match decode s.fetchBytes with
  | .ok (i, _) => handle i s
  | .error _ => .next (s.stall s.ir)

/-- One step, given the handlers. Steps exist in `Running` only (10_state.md R31, R91); in the other run states the answer
is a named stop (log 1). -/
def State.stepWith (s : State) (handle : Instr → State → Result) : Result :=
  match s.run with
  | .running => s.dispatchFetched handle
  | .idle => .fault .notStarted
  | .halted => .fault .halted
  | .faulted c => .fault (.faulted c)

/-- Bytes stored where the next step fetches, and the engine started (log 3). -/
def State.placeAndStart (s : State) (bs : List Byte) : State := (s.storeBytes s.pc bs).setRun .running

end Sys2Proof.Machine
end

