-- ==== Sys2Proof/Machine/Step.lean ====
section
/-! DEFINITION. The step function (40_cycle_and_halt.md R91), and an instruction placed where the next step fetches. -/

namespace Sys2Proof.Machine

/-- One step: in `Running` the fetched instruction is executed by `exec`, or the engine stalls (R91). -/
def step (s : State) : Host.Outcome State Fault Refusal := s.stepWith exec

/-- The state with an instruction word of the opcode table stored at `pc` and the engine started, as the loader and `start`
do it (50_host_interface.md R172, R174; log 3). -/
def State.withFetchWord (s : State) (nbits w : Nat) : State :=
  s.placeAndStart (tableBytes nbits w)

end Sys2Proof.Machine
end

