-- ==== Sys2Proof/Machine/HostPort.lean ====
section
/-! DEFINITION. The boundary of the block (50_host_interface.md): what the host may do to the state, the output ports and
the trace. None of it is part of a step: the host acts before the first fetch only, and the ports only observe (R171). -/

namespace Sys2Proof.Machine

/-- What the host can do (R170, R171). -/
inductive HostEvent where
  | reset
  | load (addr data : Byte)
  | start
deriving DecidableEq, Repr

/-- The effect of a host event: reset at any time; load and start in `Idle` only, ignored in every other run state (R170,
R171; log 20). -/
def hostEvent (e : HostEvent) (s : State) : State :=
  match e with
  | .reset => State.reset
  | .load addr data => if s.run = .idle then s.memWrite addr data else s
  | .start => if s.run = .idle then s.setRun .running else s

/-- The loader: image byte i goes to the i-th address from `a`, one load event each, in stream order (R172). -/
def loadFrom (s : State) (a : Byte) : List Byte → State
  | [] => s
  | v :: vs => loadFrom (hostEvent (.load a v) s) (a + 1#8) vs

/-- The launch state of an image (R175): reset, load from `LOAD_BASE`, start. An image longer than memory is a refused
launch (R172, decision D14). -/
def launch (image : List Byte) : Option State :=
  if image.length ≤ Config.memSize then
    some (hostEvent .start (loadFrom (hostEvent .reset State.reset) Config.loadBase image))
  else none

/-- The `halted` level (R170). -/
def haltedPort (s : State) : Bool := s.run = .halted

/-- The `faulted` level (R170). -/
def faultedPort (s : State) : Bool :=
  match s.run with
  | .faulted _ => true
  | .idle => false
  | .running => false
  | .halted => false

/-- The `fault_cause` port (60_exceptions.md R191, decision D22). -/
def faultCausePort (s : State) : BitVec 2 :=
  match s.run with
  | .faulted .invalidRegisterIndex => 1#2
  | .faulted .unsupportedAluOp => 2#2
  | .idle => 0#2
  | .running => 0#2
  | .halted => 0#2

/-- The pulse the step from `s` gives on `illegal`, with `illegal_opcode` (R170, R178). -/
def illegalPulse (s : State) : Option Byte :=
  if s.run = .running ∧ dispatch s.ir = none then some s.ir else none

/-- The pulse the step from `s` gives on `out_valid`, with `out_data`: a PRN of a register (R170, R177). -/
def outPulse (s : State) : Option Byte :=
  if s.run = .running ∧ dispatch s.ir = some .prn then (Reg.ofByte (s.memRead (s.pc + 1#8))).map s.reg else none

/-- What the trace port shows at the start of a step (R179, decision D21). -/
structure Trace where
  pc : Byte
  ir : Byte
  next1 : Byte
  next2 : Byte
  regs : RegFile
  fl : Byte
  run : RunState
deriving DecidableEq, Repr

/-- The trace port: it only reads (R179; log 19). -/
def trace (s : State) : Trace where
  pc := s.pc
  ir := s.ir
  next1 := s.memRead (s.pc + 1#8)
  next2 := s.memRead (s.pc + 2#8)
  regs := s.regs
  fl := s.fl
  run := s.run

end Sys2Proof.Machine
end

