-- ==== Sys2Proof/WellFormed.lean ====
section
/-! DEFINITION. Which instructions have legal operands: every register operand byte in 0..7 (30_encoding.md R75, R79).
LDI's second operand is an immediate and is never checked. -/

namespace Sys2Proof

/-- A register operand byte is legal when it is below `NREGS` (R75). -/
def legalRegByte (a : Byte) : Bool := a.toNat < Config.nregs

/-- Every register operand byte of the instruction is in 0..7 (R75). -/
def Instr.wf : Instr → Bool
  | .hlt => true
  | .ldi a _ => legalRegByte a
  | .prn a => legalRegByte a
  | .add a b => legalRegByte a && legalRegByte b
  | .mul a b => legalRegByte a && legalRegByte b
  | .cmp a b => legalRegByte a && legalRegByte b
  | .push a => legalRegByte a
  | .pop a => legalRegByte a
  | .call a => legalRegByte a
  | .ret => true
  | .jmp a => legalRegByte a
  | .jeq a => legalRegByte a
  | .jne a => legalRegByte a

end Sys2Proof
end

