-- ==== Sys2Proof/Safety.lean ====
section
/-! DEFINITION. The terms in which claims are stated: the invariant of the machine, how a run ends or fails to, and what an
instruction may leave unchanged. -/

namespace Sys2Proof.Machine

/-- The values the flags register can hold (10_state.md R28): no flag before the first CMP, exactly one after. -/
def FlLegal (fl : Byte) : Prop := fl = 0x00#8 ∨ fl = 0x01#8 ∨ fl = 0x02#8 ∨ fl = 0x04#8

/-- The invariant of the machine: memory in canonical form, flags legal (R28), and the unreachable fault not taken
(60_exceptions.md R194). -/
structure State.Inv (s : State) : Prop where
  mem_wf : s.mem.wf
  fl_legal : FlLegal s.fl
  no_alu_fault : s.run ≠ .faulted .unsupportedAluOp

/-- The 13 opcode values of 30_encoding.md R76, written out. -/
def recognizedOpcodes : List Byte :=
  [0x01#8, 0x82#8, 0x47#8, 0xA0#8, 0xA2#8, 0xA7#8, 0x45#8, 0x46#8, 0x50#8, 0x11#8, 0x54#8, 0x55#8, 0x56#8]

/-- The engine is stalled: it runs, and the byte at `pc` is none of the 13 opcode values (40_cycle_and_halt.md R96). -/
def State.Stalled (s : State) : Prop := s.run = .running ∧ s.memRead s.pc ∉ recognizedOpcodes

/-- Memory holds these bytes at rising addresses from `a`, wrapping at the top. -/
def State.holds (s : State) (a : Byte) : List Byte → Bool
  | [] => true
  | v :: vs => s.memRead a == v && s.holds (a + 1#8) vs

/-- The registers an instruction may write (10_state.md R23). -/
def mayWrite (i : Instr) (q : Reg) : Prop :=
  match i with
  | .ldi a _ => a = q.byte
  | .add a _ => a = q.byte
  | .mul a _ => a = q.byte
  | .push _ => q = .r7
  | .pop a => a = q.byte ∨ q = .r7
  | .call _ => q = .r7
  | .ret => q = .r7
  | .hlt => False
  | .prn _ => False
  | .cmp _ _ => False
  | .jmp _ => False
  | .jeq _ => False
  | .jne _ => False

/-- The registers an instruction may read in a state whose flags are `fl` (10_state.md R23): JEQ and JNE read theirs when
taken. -/
def mayRead (i : Instr) (fl : Byte) (q : Reg) : Prop :=
  match i with
  | .prn a => a = q.byte
  | .add a b => a = q.byte ∨ b = q.byte
  | .mul a b => a = q.byte ∨ b = q.byte
  | .cmp a b => a = q.byte ∨ b = q.byte
  | .push a => q = .r7 ∨ a = q.byte
  | .pop _ => q = .r7
  | .call a => q = .r7 ∨ a = q.byte
  | .ret => q = .r7
  | .jmp a => a = q.byte
  | .jeq a => a = q.byte ∧ flE fl = true
  | .jne a => a = q.byte ∧ flE fl = false
  | .hlt => False
  | .ldi _ _ => False

/-- Every register outside `rs` holds what it held. -/
def RegsSameExcept (rs : List Reg) (s t : State) : Prop := ∀ r, r ∉ rs → t.reg r = s.reg r

/-- Every byte of memory reads as before. -/
def MemSame (s t : State) : Prop := ∀ a, t.memRead a = s.memRead a

/-- Every byte of memory but the one at `b` reads as before. -/
def MemSameExcept (b : Byte) (s t : State) : Prop := ∀ a, a ≠ b → t.memRead a = s.memRead a

/-- The run state and both histories are what they were. -/
def RunAndHistoriesSame (s t : State) : Prop := t.run = s.run ∧ t.out = s.out ∧ t.reports = s.reports

/-- Registers, `pc`, flags, memory and the output stream are what they were. -/
def ArchSame (s t : State) : Prop :=
  RegsSameExcept [] s t ∧ t.pc = s.pc ∧ t.fl = s.fl ∧ MemSame s t ∧ t.out = s.out

/-- The states agree in all but the flags register. -/
def SameButFl (s t : State) : Prop := t.setFl s.fl = s

/-- The states agree in all but memory. -/
def SameButMem (s t : State) : Prop := { t with mem := s.mem } = s

/-- The states agree in all but the registers. -/
def SameButRegs (s t : State) : Prop := { t with regs := s.regs } = s

end Sys2Proof.Machine
end

