-- ==== Sys2Proof/Certificates/Slice0/Obligations.lean ====
section
/-! DEFINITION. The statements for the provers. `r.byte` runs over the eight legal register operand bytes, so a statement
over `r : Reg` holds for every legal operand; the illegal bytes have statements of their own. A clause that rests on a
decision D<n> of the spec (92_eei_decisions.md) or on a choice of the model (log n) names it. -/

open Sys2Proof Sys2Proof.Machine

/-! ## Encoding -/

/-- Every instruction, whatever its operand bytes, decodes back from its encoding, and the bytes after it are left alone
(30_encoding.md R70, R72, R76; nine opcode values are decision D9, log 10). -/
def Obligations.DecodeOfEncode : Prop :=
  ∀ (i : Instr) (rest : List Byte), decode (encode i ++ rest) = .ok (i, rest)

/-- What decodes is an encoding: each instruction has one encoding, there are no aliases (R78). -/
def Obligations.EncodeOfDecode : Prop :=
  ∀ (bs : List Byte) (i : Instr) (rest : List Byte), decode bs = .ok (i, rest) → bs = encode i ++ rest

/-- The opcode values are the 13 of R76, pairwise distinct, and every other opcode byte is rejected as unrecognized whatever
follows it (R78; nine values are decision D9, log 10). -/
def Obligations.OtherOpcodesUnrecognized : Prop :=
  recognizedOpcodes.Nodup ∧
  ∀ (ir : Byte) (rest : List Byte),
    decode (ir :: rest) = .error (.unrecognizedOpcode ir) ↔ ir ∉ recognizedOpcodes

/-- The operand count is bits 7..6 of the opcode byte as a number, that is the byte divided by 64, whichever handler is
registered; every instruction has that many operand bytes; and so it is 2, 2, 1, 0 for the opcodes of LDI, ADD, PRN, HLT
(R71, conflict C1). -/
def Obligations.OperandCountIsTopTwoBits : Prop :=
  (∀ ir : Byte, operandCount ir = (ir.extractLsb 7 6).toNat ∧ operandCount ir = ir.toNat / 64) ∧
  (∀ i : Instr, (encode i).length = operandCount ((encode i).headD 0#8) + 1) ∧
  operandCount 0b10000010#8 = 2 ∧ operandCount 0b10100000#8 = 2 ∧ operandCount 0b01000111#8 = 1 ∧
  operandCount 0b00000001#8 = 0

/-- The fetch reads the byte at `pc` and then as many operand bytes as the opcode asks for, at rising addresses modulo 256,
and the instruction decoded from them has them as its operands in address order (R70, R72; the wrap at the top of memory is
decision D2, log 11; that a count of 3 reads two bytes is the model's choice, log 17). -/
def Obligations.FetchReadsOperandsInAddressOrder : Prop :=
  ∀ s : State,
    s.fetchBytes.length = min (operandCount (s.memRead s.pc)) 2 + 1 ∧
    s.holds s.pc s.fetchBytes = true ∧
    ∀ (i : Instr) (rest : List Byte), decode s.fetchBytes = .ok (i, rest) →
      rest = [] ∧ s.holds (s.pc + 1#8) i.operands = true

/-- Words written out from the encodings of R70 and R76 decode to their instructions. -/
def Obligations.TableWordsDecode : Prop :=
  decode [0b00000001#8] = .ok (.hlt, []) ∧
  decode [0b10000010#8, 0b00000011#8, 0b11111111#8] = .ok (.ldi 3#8 255#8, []) ∧
  decode [0b01000111#8, 0b00000101#8] = .ok (.prn 5#8, []) ∧
  decode [0b10100000#8, 0b00000000#8, 0b00000001#8] = .ok (.add 0#8 1#8, []) ∧
  decode [0b10100111#8, 0b00000010#8, 0b00000111#8] = .ok (.cmp 2#8 7#8, []) ∧
  decode [0b01000101#8, 0b00000110#8] = .ok (.push 6#8, []) ∧
  decode [0b00010001#8] = .ok (.ret, []) ∧
  decode [0b01010110#8, 0b00000100#8] = .ok (.jne 4#8, [])

/-- A register operand byte names the register of its number when it is in 0..7 and no register above: nothing is masked
(R75, decision D6, log 12). -/
def Obligations.RegisterBytesAreNotMasked : Prop :=
  ([Reg.r0, .r1, .r2, .r3, .r4, .r5, .r6, .r7].map fun r => r.byte.toNat) = [0, 1, 2, 3, 4, 5, 6, 7] ∧
  (∀ r : Reg, Reg.ofByte r.byte = some r) ∧
  ∀ a : Byte, (Reg.ofByte a = none ↔ 8 ≤ a.toNat) ∧ (legalRegByte a = true ↔ a.toNat < 8)

/-! ## The step -/

/-- A running engine executes the instruction whose bytes are at `pc` (legal operands or not), and nothing is added around
its handler (40_cycle_and_halt.md R91): said of the encoding in memory, and of the bytes at `pc` decoded. -/
def Obligations.StepRunsInstructionAtPc : Prop :=
  (∀ (s : State) (i : Instr), s.run = .running → s.holds s.pc (encode i) = true → step s = exec i s) ∧
  ∀ (s : State) (i : Instr) (rest : List Byte), s.run = .running →
    decode [s.memRead s.pc, s.memRead (s.pc + 1#8), s.memRead (s.pc + 2#8)] = .ok (i, rest) → step s = exec i s

/-- Steps exist in `Running` and in no other run state (10_state.md R31, R91; the run states are decision D10). That the
model answers a fault of each name where no step exists is its own choice (log 1), and so is that a stalled step answers a
next state (log 2). -/
def Obligations.StepsExistOnlyInRunning : Prop :=
  ∀ s : State,
    ((∃ t, step s = .next t) ↔ s.run = .running) ∧
    (s.run = .idle → step s = .fault .notStarted) ∧
    (s.run = .halted → step s = .fault .halted) ∧
    ∀ c, s.run = .faulted c → step s = .fault (.faulted c)

/-- A stalled engine's step appends the report of the opcode and changes nothing else: `pc` stays and `run` stays `Running`
(R96, decision D5; the literal reading of R97, log 2). -/
def Obligations.UnrecognizedOpcodeStalls : Prop :=
  ∀ s : State, s.Stalled →
    ∃ t, step s = .next t ∧ ArchSame s t ∧ t.run = .running ∧
      t.reports = s.reports ++ [.unrecognizedOpcode (s.memRead s.pc)]

/-- The stall lasts for ever: after any number of steps the engine still runs, with registers, `pc`, flags, memory and
output as they were, so it never halts (R96; the model takes the literal self-loop of R97, log 2). -/
def Obligations.StallLastsForever : Prop :=
  ∀ (n : Nat) (s : State), s.Stalled →
    ∃ t, Host.Core.run core n s = .next t ∧ ArchSame s t ∧ t.run = .running

/-- An instruction with a register operand byte above 7 takes the fault `InvalidRegisterIndex` and has no other effect: no
register, `pc`, flag, memory byte or output changes (R75, 60_exceptions.md R193, R199; decision D6, log 12). -/
def Obligations.IllegalRegisterByteFaults : Prop :=
  ∀ (i : Instr) (s : State), i.wf = false →
    ∃ t, exec i s = .next t ∧ t.run = .faulted .invalidRegisterIndex ∧ ArchSame s t ∧ t.reports = s.reports

/-- An ALU handler given a tag outside ADD, MUL, CMP takes the fault `UnsupportedAluOp` and has no other effect (42_alu.md
R121, 60_exceptions.md R194; decision D15; the tag type is the model's choice, log 8). -/
def Obligations.UnsupportedAluTagFaults : Prop :=
  ∀ (code : Nat) (ra rb : Reg) (s : State),
    ∃ t, aluHandler (.unsupported code) ra.byte rb.byte s = .next t ∧ t.run = .faulted .unsupportedAluOp ∧
      ArchSame s t ∧ t.reports = s.reports

/-- No step enters `Faulted(UnsupportedAluOp)`, whatever bytes are in memory (42_alu.md R121, 60_exceptions.md R194). -/
def Obligations.UnsupportedAluOpUnreachable : Prop :=
  ∀ s t : State, step s = .next t → t.run ≠ .faulted .unsupportedAluOp

/-- A step has exactly one outcome, decided in this order: the opcode is unrecognized and the step stalls; else a register
operand byte is illegal and the step faults; else the handler runs and raises nothing (60_exceptions.md R198,
40_cycle_and_halt.md R93; the stall is decision D5, as a next state the model's choice, log 2; the fault D6, log 12). -/
def Obligations.OneOutcomePerStep : Prop :=
  ∀ s t : State, step s = .next t →
    (s.memRead s.pc ∉ recognizedOpcodes ∧ ArchSame s t ∧ t.run = .running ∧
      t.reports = s.reports ++ [.unrecognizedOpcode (s.memRead s.pc)]) ∨
    (s.memRead s.pc ∈ recognizedOpcodes ∧ t.reports = s.reports ∧
      ∃ i : Instr, s.holds s.pc (encode i) = true ∧
        ((i.wf = false ∧ ArchSame s t ∧ t.run = .faulted .invalidRegisterIndex) ∨
          (i.wf = true ∧ exec i s = .next t ∧ ∀ c, t.run ≠ .faulted c)))

/-- A step ends in `Halted` exactly when the byte at `pc` is the opcode of HLT (40_cycle_and_halt.md R94, R95). -/
def Obligations.OnlyHltHalts : Prop :=
  ∀ s t : State, step s = .next t → (t.run = .halted ↔ s.memRead s.pc = 0x01#8)

/-! ## Each instruction: result, completion and frame -/

/-- HLT enters `Halted` and changes nothing else; `pc` keeps the address of the HLT (R94; the latter is decision D10). -/
def Obligations.HltResult : Prop :=
  ∀ s : State, ∃ t, exec .hlt s = .next t ∧ t.run = .halted ∧ ArchSame s t ∧ t.reports = s.reports

/-- LDI stores its immediate byte, any value, in `x[a]` and advances `pc` by 3 (41_load_and_print.md R110; the wrap of `pc` is
decision D1, log 11). -/
def Obligations.LdiResult : Prop :=
  ∀ (s : State) (r : Reg) (b : Byte),
    ∃ t, exec (.ldi r.byte b) s = .next t ∧ t.reg r = b ∧ t.pc = s.pc + 3#8 ∧
      RegsSameExcept [r] s t ∧ t.fl = s.fl ∧ MemSame s t ∧ RunAndHistoriesSame s t

/-- PRN appends the 8-bit value of `x[a]` to the output stream and advances `pc` by 2 (R111; that the byte is handed over is
decision D12, the wrap of `pc` D1, log 11). -/
def Obligations.PrnResult : Prop :=
  ∀ (s : State) (r : Reg),
    ∃ t, exec (.prn r.byte) s = .next t ∧ t.out = s.out ++ [s.reg r] ∧ t.pc = s.pc + 2#8 ∧
      RegsSameExcept [] s t ∧ t.fl = s.fl ∧ MemSame s t ∧ t.run = s.run ∧ t.reports = s.reports

/-- ADD writes the sum modulo 256 to `x[a]`, sets no flag, and advances `pc` by 3 (42_alu.md R122, R125; the wrap of `pc` is
decision D1, log 11). -/
def Obligations.AddResult : Prop :=
  ∀ (s : State) (ra rb : Reg),
    ∃ t, exec (.add ra.byte rb.byte) s = .next t ∧
      (t.reg ra).toNat = ((s.reg ra).toNat + (s.reg rb).toNat) % 256 ∧ t.pc = s.pc + 3#8 ∧
      RegsSameExcept [ra] s t ∧ t.fl = s.fl ∧ MemSame s t ∧ RunAndHistoriesSame s t

/-- MUL writes the product modulo 256 to `x[a]`, sets no flag, and advances `pc` by 3 (42_alu.md R123, R125; the wrap of `pc`
is decision D1, log 11). -/
def Obligations.MulResult : Prop :=
  ∀ (s : State) (ra rb : Reg),
    ∃ t, exec (.mul ra.byte rb.byte) s = .next t ∧
      (t.reg ra).toNat = ((s.reg ra).toNat * (s.reg rb).toNat) % 256 ∧ t.pc = s.pc + 3#8 ∧
      RegsSameExcept [ra] s t ∧ t.fl = s.fl ∧ MemSame s t ∧ RunAndHistoriesSame s t

/-- CMP compares the registers as unsigned numbers, writes the whole flags register, and advances `pc` by 3; it writes no
register (42_alu.md R124; the direction of L and G is decision D8, the zero bits 7..3 D7, log 14). -/
def Obligations.CmpResult : Prop :=
  ∀ (s : State) (ra rb : Reg),
    ∃ t, exec (.cmp ra.byte rb.byte) s = .next t ∧
      ((s.reg ra).toNat = (s.reg rb).toNat → t.fl = 0b00000001#8) ∧
      ((s.reg ra).toNat > (s.reg rb).toNat → t.fl = 0b00000010#8) ∧
      ((s.reg ra).toNat < (s.reg rb).toNat → t.fl = 0b00000100#8) ∧ t.pc = s.pc + 3#8 ∧
      RegsSameExcept [] s t ∧ MemSame s t ∧ RunAndHistoriesSame s t

/-- The CMP outcome law: the table of L, G, E and the flags byte by the unsigned relation, exactly one flag set in each row,
and CMP of a register with itself sets E (42_alu.md R126). -/
def Obligations.CmpSetsExactlyOneFlag : Prop :=
  ∀ (s : State) (ra rb : Reg),
    ∃ t, exec (.cmp ra.byte rb.byte) s = .next t ∧
      ((s.reg ra).toNat = (s.reg rb).toNat →
        flL t.fl = false ∧ flG t.fl = false ∧ flE t.fl = true ∧ t.fl = 0x01#8) ∧
      ((s.reg ra).toNat > (s.reg rb).toNat →
        flL t.fl = false ∧ flG t.fl = true ∧ flE t.fl = false ∧ t.fl = 0x02#8) ∧
      ((s.reg ra).toNat < (s.reg rb).toNat →
        flL t.fl = true ∧ flG t.fl = false ∧ flE t.fl = false ∧ t.fl = 0x04#8) ∧
      ((flE t.fl).toNat + (flG t.fl).toNat + (flL t.fl).toNat = 1) ∧
      (ra = rb → flE t.fl = true)

/-- PUSH decrements the stack pointer, then stores `x[a]` there; PUSH R7 stores the decremented stack pointer (43_stack.md
R141, 20_memory.md R57; the order is decision D17, log 13). -/
def Obligations.PushResult : Prop :=
  ∀ (s : State) (r : Reg),
    ∃ t, exec (.push r.byte) s = .next t ∧
      t.sp = s.sp - 1#8 ∧
      t.memRead (s.sp - 1#8) = (if r = .r7 then s.sp - 1#8 else s.reg r) ∧ MemSameExcept (s.sp - 1#8) s t ∧
      t.pc = s.pc + 2#8 ∧ RegsSameExcept [.r7] s t ∧ t.fl = s.fl ∧ RunAndHistoriesSame s t

/-- POP loads the byte at the stack pointer into `x[a]`, then increments the stack pointer; POP R7 leaves the loaded byte
plus one; memory is not changed (43_stack.md R142; the order is decision D17, log 13). -/
def Obligations.PopResult : Prop :=
  ∀ (s : State) (r : Reg),
    ∃ t, exec (.pop r.byte) s = .next t ∧
      (r ≠ .r7 → t.reg r = s.memRead s.sp ∧ t.sp = s.sp + 1#8) ∧
      (r = .r7 → t.sp = s.memRead s.sp + 1#8) ∧
      t.pc = s.pc + 2#8 ∧ RegsSameExcept [r, .r7] s t ∧ t.fl = s.fl ∧ MemSame s t ∧ RunAndHistoriesSame s t

/-- CALL decrements the stack pointer, stores the address after the CALL there, and jumps to `x[a]`; CALL R7 jumps to the
decremented stack pointer (44_control_transfer.md R151; the order is decision D17, log 13, the wrap of the return address
D1, log 11). -/
def Obligations.CallResult : Prop :=
  ∀ (s : State) (r : Reg),
    ∃ t, exec (.call r.byte) s = .next t ∧
      t.sp = s.sp - 1#8 ∧ t.memRead (s.sp - 1#8) = s.pc + 2#8 ∧ MemSameExcept (s.sp - 1#8) s t ∧
      t.pc = (if r = .r7 then s.sp - 1#8 else s.reg r) ∧
      RegsSameExcept [.r7] s t ∧ t.fl = s.fl ∧ RunAndHistoriesSame s t

/-- RET jumps to the byte at the stack pointer, whatever pushed it, and increments the stack pointer; memory is not changed
(44_control_transfer.md R152). -/
def Obligations.RetResult : Prop :=
  ∀ s : State,
    ∃ t, exec .ret s = .next t ∧ t.pc = s.memRead s.sp ∧ t.sp = s.sp + 1#8 ∧
      RegsSameExcept [.r7] s t ∧ t.fl = s.fl ∧ MemSame s t ∧ RunAndHistoriesSame s t

/-- JMP puts `x[a]` in `pc` and changes nothing else (44_control_transfer.md R153). -/
def Obligations.JmpResult : Prop :=
  ∀ (s : State) (r : Reg),
    ∃ t, exec (.jmp r.byte) s = .next t ∧ t.pc = s.reg r ∧
      RegsSameExcept [] s t ∧ t.fl = s.fl ∧ MemSame s t ∧ RunAndHistoriesSame s t

/-- JEQ jumps to `x[a]` when bit 0 of the flags is set and goes on to `pc + 2` when it is clear; nothing else changes
(44_control_transfer.md R154; the wrap of `pc` is decision D1, log 11). -/
def Obligations.JeqResult : Prop :=
  ∀ (s : State) (r : Reg),
    ∃ t, exec (.jeq r.byte) s = .next t ∧
      (s.fl.getLsbD 0 = true → t.pc = s.reg r) ∧ (s.fl.getLsbD 0 = false → t.pc = s.pc + 2#8) ∧
      RegsSameExcept [] s t ∧ t.fl = s.fl ∧ MemSame s t ∧ RunAndHistoriesSame s t

/-- JNE jumps to `x[a]` when bit 0 of the flags is clear and goes on to `pc + 2` when it is set; nothing else changes
(44_control_transfer.md R155; the wrap of `pc` is decision D1, log 11). -/
def Obligations.JneResult : Prop :=
  ∀ (s : State) (r : Reg),
    ∃ t, exec (.jne r.byte) s = .next t ∧
      (s.fl.getLsbD 0 = false → t.pc = s.reg r) ∧ (s.fl.getLsbD 0 = true → t.pc = s.pc + 2#8) ∧
      RegsSameExcept [] s t ∧ t.fl = s.fl ∧ MemSame s t ∧ RunAndHistoriesSame s t

/-! ## Rules over pairs of instructions -/

/-- LDI then PRN of the same register, from memory at `pc`: two steps append exactly the immediate to the output stream, leave
it in the register, and advance `pc` by 5 (41_load_and_print.md R112). -/
def Obligations.LdiThenPrnPrintsImmediate : Prop :=
  ∀ (s : State) (r : Reg) (v : Byte), s.run = .running →
    s.holds s.pc [0x82#8, r.byte, v, 0x47#8, r.byte] = true →
    ∃ t u, step s = .next t ∧ step t = .next u ∧ u.out = s.out ++ [v] ∧ u.pc = s.pc + 5#8 ∧ u.reg r = v

/-- PUSH then POP, from memory at `pc`, where the byte stored does not fall on the POP: the popped register gets the pushed
value and the stack pointer comes back; with register 7 in either place the effects are sequential, PUSH R7 pushing the
decremented stack pointer and POP R7 leaving the popped byte plus one (43_stack.md R143; decision D17, log 13). -/
def Obligations.PushThenPopRoundTrip : Prop :=
  ∀ (s : State) (r q : Reg), s.run = .running →
    s.holds s.pc [0x45#8, r.byte, 0x46#8, q.byte] = true →
    s.sp - 1#8 ≠ s.pc + 2#8 → s.sp - 1#8 ≠ s.pc + 3#8 →
    ∃ t u, step s = .next t ∧ step t = .next u ∧
      (r ≠ .r7 → q ≠ .r7 → u.reg q = s.reg r) ∧ (q ≠ .r7 → u.sp = s.sp) ∧
      (r = .r7 → q ≠ .r7 → u.reg q = s.sp - 1#8) ∧
      (r ≠ .r7 → q = .r7 → u.sp = s.reg r + 1#8) ∧
      (r = .r7 → q = .r7 → u.sp = s.sp) ∧
      u.pc = s.pc + 4#8 ∧ RegsSameExcept [q, .r7] s u ∧ MemSameExcept (s.sp - 1#8) s u

/-- CALL, then any code that leaves the stack pointer and the return-address byte as CALL left them, then RET: execution
resumes at the address of the CALL plus 2 with the stack pointer of before the CALL (44_control_transfer.md R157; the wrap
of the return address is decision D1, log 11). -/
def Obligations.CallThenRetReturns : Prop :=
  ∀ (s : State) (r : Reg), s.run = .running → s.holds s.pc [0x50#8, r.byte] = true →
    ∃ t, step s = .next t ∧ (r ≠ .r7 → t.pc = s.reg r) ∧
      ∀ u : State, u.run = .running → u.memRead u.pc = 0x11#8 → u.sp = t.sp →
        u.memRead t.sp = t.memRead t.sp →
        ∃ v, step u = .next v ∧ v.pc = s.pc + 2#8 ∧ v.sp = s.sp

/-- A byte that PUSH or CALL stores at the address fetched next is the opcode that executes next, with no fence or flush: if it
begins an instruction whose operand bytes follow it, the next step executes that instruction (20_memory.md R62; decision
D18, log 21; the forms with register 7 D17, log 13). -/
def Obligations.StoredByteIsFetchedNext : Prop :=
  (∀ (s : State) (r : Reg), s.run = .running → s.holds s.pc [0x45#8, r.byte] = true →
    s.sp - 1#8 = s.pc + 2#8 →
    ∃ t, step s = .next t ∧ t.memRead t.pc = (if r = .r7 then s.sp - 1#8 else s.reg r) ∧
      ∀ i : Instr, (encode i).head? = some (if r = .r7 then s.sp - 1#8 else s.reg r) →
        s.holds (s.pc + 3#8) i.operands = true → step t = exec i t) ∧
  ∀ (s : State) (r : Reg), s.run = .running → s.holds s.pc [0x50#8, r.byte] = true →
    (r = .r7 ∨ s.reg r = s.sp - 1#8) →
    ∃ t, step s = .next t ∧ t.memRead t.pc = s.pc + 2#8 ∧
      ∀ i : Instr, (encode i).head? = some (s.pc + 2#8) → s.holds s.sp i.operands = true → step t = exec i t

/-- JMP to its own address is an endless loop: every step gives back the same state, with no report and no fault
(44_control_transfer.md R153). -/
def Obligations.JumpToItselfLoops : Prop :=
  ∀ (n : Nat) (s : State) (r : Reg), s.run = .running → s.holds s.pc [0x54#8, r.byte] = true → s.reg r = s.pc →
    Host.Core.run core n s = .next s

/-! ## Rules over the whole machine -/

/-- The new `pc` of every instruction with legal operands, of an unrecognized opcode and of a faulting instruction: the table of
10_state.md R25. Where an instruction adds, it adds its operand count plus one. That CALL jumps to its register as read after
the decrement is 44_control_transfer.md R151 (decision D17, log 13); that a stalled step answers a next state is the model's
choice between the two readings of 40_cycle_and_halt.md R97 (DESIGN CHOICE, log 2; the stall is R96, decision D5). HLT
keeping `pc` is decision D10 (log 16), the wrap of `pc` D1 (log 11). -/
def Obligations.NextPcTable : Prop :=
  (∀ s, ∃ t, exec .hlt s = .next t ∧ t.pc = s.pc) ∧
  (∀ s i r b, (i = .ldi (Reg.byte r) b ∨ ∃ q, b = Reg.byte q ∧ (i = .add r.byte b ∨ i = .mul r.byte b ∨ i = .cmp r.byte b)) →
    ∃ t, exec i s = .next t ∧ t.pc = s.pc + 3#8 ∧ operandCount i.handler.opcode + 1 = 3) ∧
  (∀ s i r, (i = .prn (Reg.byte r) ∨ i = .push (Reg.byte r) ∨ i = .pop (Reg.byte r)) →
    ∃ t, exec i s = .next t ∧ t.pc = s.pc + 2#8 ∧ operandCount i.handler.opcode + 1 = 2) ∧
  (∀ s r, ∃ t, exec (.call (Reg.byte r)) s = .next t ∧ t.pc = s.decSp.reg r) ∧
  (∀ s r, ∃ t, exec (.jmp (Reg.byte r)) s = .next t ∧ t.pc = s.reg r) ∧
  (∀ s, ∃ t, exec .ret s = .next t ∧ t.pc = s.memRead s.sp) ∧
  (∀ s r, ∃ t, exec (.jeq (Reg.byte r)) s = .next t ∧ t.pc = if s.fl.getLsbD 0 then s.reg r else s.pc + 2#8) ∧
  (∀ s r, ∃ t, exec (.jne (Reg.byte r)) s = .next t ∧ t.pc = if s.fl.getLsbD 0 then s.pc + 2#8 else s.reg r) ∧
  operandCount Handler.jeq.opcode + 1 = 2 ∧ operandCount Handler.jne.opcode + 1 = 2 ∧
  (∀ s : State, s.Stalled → ∃ t, step s = .next t ∧ t.pc = s.pc) ∧
  (∀ (s t : State) (c : FaultCause), step s = .next t → t.run = .faulted c → t.pc = s.pc)

/-- The conditional-branch resolver and the next-pc multiplexer: JEQ is taken on bit 0 set, JNE on bit 0 clear, JMP, CALL and
RET always, nothing else ever; the next `pc` is the register or stack target when taken and the address after the
instruction when not, or `pc` held for HLT, a stall and a fault; G and L take part in no branch; and after a CMP that sets
Equal JEQ transfers control and JNE does not, and vice versa when Equal is clear (44_control_transfer.md R156). That CALL
jumps to its register as read after the decrement is 44_control_transfer.md R151 (decision D17, log 13); that a stalled step
answers a next state is the model's choice between the two readings of 40_cycle_and_halt.md R97 (DESIGN CHOICE, log 2; the
stall is R96, decision D5). That an illegal register byte faults is decision D6 (log 12), HLT keeping `pc` D10 (log 16), the
wrap of `pc` D1 (log 11). -/
def Obligations.BranchResolver : Prop :=
  (∀ a fl, taken (.jeq a) fl = fl.getLsbD 0 ∧ taken (.jne a) fl = !fl.getLsbD 0) ∧
  (∀ a fl, taken (.jmp a) fl = true ∧ taken (.call a) fl = true ∧ taken .ret fl = true) ∧
  (∀ i fl, (∀ a, i ≠ .jeq a ∧ i ≠ .jne a ∧ i ≠ .jmp a ∧ i ≠ .call a) → i ≠ .ret → taken i fl = false) ∧
  (∀ i fl fl', fl.getLsbD 0 = fl'.getLsbD 0 → taken i fl = taken i fl') ∧
  (∀ s r i, (i = .jeq (Reg.byte r) ∨ i = .jne (Reg.byte r) ∨ i = .jmp (Reg.byte r)) → taken i s.fl = true →
    ∃ t, exec i s = .next t ∧ t.pc = s.reg r) ∧
  (∀ s r, ∃ t, exec (.call (Reg.byte r)) s = .next t ∧ t.pc = s.decSp.reg r) ∧
  (∀ s, ∃ t, exec .ret s = .next t ∧ t.pc = s.memRead s.sp) ∧
  (∀ s i, i ≠ .hlt → i.wf = true → taken i s.fl = false →
    ∃ t, exec i s = .next t ∧ t.pc = s.pc + BitVec.ofNat 8 (i.operands.length + 1)) ∧
  (∀ s i, i = .hlt ∨ i.wf = false → ∃ t, exec i s = .next t ∧ t.pc = s.pc) ∧
  (∀ s : State, s.Stalled → ∃ t, step s = .next t ∧ t.pc = s.pc) ∧
  ∀ (s : State) (ra rb r : Reg), ∃ t e n, exec (.cmp ra.byte rb.byte) s = .next t ∧
    exec (.jeq r.byte) t = .next e ∧ exec (.jne r.byte) t = .next n ∧
    (s.reg ra = s.reg rb → e.pc = t.reg r ∧ n.pc = t.pc + 2#8) ∧
    (s.reg ra ≠ s.reg rb → e.pc = t.pc + 2#8 ∧ n.pc = t.reg r)

/-- The flags register is written by CMP alone, which leaves exactly one flag set, and read by JEQ and JNE alone, which read
bit 0 alone: with other flags before it, an instruction does the same to everything else, JEQ and JNE when bit 0 is the
same; and the flags are always one of 0x00, 0x01, 0x02, 0x04, from the 0x00 of reset on (10_state.md R28). -/
def Obligations.FlagsWrittenByCmpReadByJumps : Prop :=
  (∀ i s t, (∀ a b, i ≠ .cmp a b) → exec i s = .next t → t.fl = s.fl) ∧
  (∀ (s : State) (ra rb : Reg), ∃ t, exec (.cmp ra.byte rb.byte) s = .next t ∧
    (t.fl = 0x01#8 ∨ t.fl = 0x02#8 ∨ t.fl = 0x04#8) ∧
    ∀ f, ∃ u, exec (.cmp ra.byte rb.byte) (s.setFl f) = .next u ∧ u.fl = t.fl) ∧
  (∀ i s f, (∀ a, i ≠ .jeq a ∧ i ≠ .jne a) ∨ f.getLsbD 0 = s.fl.getLsbD 0 →
    ∃ t u, exec i s = .next t ∧ exec i (s.setFl f) = .next u ∧ SameButFl t u) ∧
  State.reset.fl = 0x00#8 ∧
  (∀ s t : State, FlLegal s.fl → step s = .next t → FlLegal t.fl)

/-- Memory is written by PUSH and CALL alone, and there only in the byte at the decremented stack pointer; no other
instruction, no stall and no fault writes it (20_memory.md R51, 10_state.md R32). -/
def Obligations.MemoryWrittenByPushAndCallOnly : Prop :=
  ∀ s t : State, step s = .next t →
    (s.memRead s.pc ≠ 0x45#8 → s.memRead s.pc ≠ 0x50#8 → MemSame s t) ∧ MemSameExcept (s.sp - 1#8) s t

/-- No handler but those of POP and RET reads memory, and those read the byte at the stack pointer alone: over another memory
(with that byte the same, for POP and RET) an instruction does the same to everything but memory, and each byte of memory is
either left as it was in both or the same in both, so that no byte stored was read from memory (20_memory.md R51). -/
def Obligations.MemoryReadByPopAndRetOnly : Prop :=
  ∀ (i : Instr) (s : State) (m : Memory),
    ((∀ a, i ≠ .pop a) ∧ i ≠ .ret) ∨ m.read s.sp = s.memRead s.sp →
    ∃ t u, exec i s = .next t ∧ exec i { s with mem := m } = .next u ∧ SameButMem t u ∧
      ∀ a, t.memRead a = u.memRead a ∨ (t.memRead a = s.memRead a ∧ u.memRead a = m.read a)

/-- An instruction writes no register but those of its row in the table of 10_state.md R23. -/
def Obligations.RegistersWrittenByTable : Prop :=
  ∀ (i : Instr) (s : State), ∃ t, exec i s = .next t ∧ ∀ q, ¬ mayWrite i q → t.reg q = s.reg q

/-- An instruction reads no register but those of its row in the table of 10_state.md R23: over other register contents that
agree on those, it does the same to `pc`, flags, memory, run state and histories and gives every register it changes the
same value (JEQ and JNE read their register when taken only). -/
def Obligations.RegistersReadByTable : Prop :=
  ∀ (i : Instr) (s : State) (f : RegFile), (∀ q, mayRead i s.fl q → f.get q = s.reg q) →
    ∃ t u, exec i s = .next t ∧ exec i { s with regs := f } = .next u ∧ SameButRegs t u ∧
      ∀ q, t.reg q = u.reg q ∨ (t.reg q = s.reg q ∧ u.reg q = f.get q)

/-- Every value emitted and every report appended is a pulse on its port, and each pulse is appended, once and in order: the
output stream is lossless (50_host_interface.md R170, R177, R178; decision D11; that the pulses are functions of the state
before the step is the model's choice, log 19, and so is that each stalled step is a step with its report, log 2). -/
def Obligations.PulsesMatchHistories : Prop :=
  ∀ s t : State, step s = .next t →
    t.out = s.out ++ (outPulse s).toList ∧
    t.reports = s.reports ++ (illegalPulse s).toList.map .unrecognizedOpcode

/-- Over any number of steps the output stream and the reports only grow (10_state.md R34). -/
def Obligations.HistoriesOnlyGrow : Prop :=
  ∀ (n : Nat) (s t : State), Host.Core.run core n s = .next t → s.out <+: t.out ∧ s.reports <+: t.reports

/-- Every step keeps the invariant: memory in canonical form, the flags one of 0x00, 0x01, 0x02, 0x04 (10_state.md R28), the
unreachable ALU fault not taken (60_exceptions.md R194). -/
def Obligations.StepKeepsInvariant : Prop := ∀ s t : State, s.Inv → step s = .next t → t.Inv

/-- The state after reset meets the invariant. -/
def Obligations.ResetMeetsInvariant : Prop := State.reset.Inv

/-! ## Reset and the host -/

/-- The values of reset (10_state.md R35, 70_reset_and_hazards.md R210; the stack pointer is decision D23, log 15, the flags D3,
log 14, memory D4, log 9, the run state D10, log 16). -/
def Obligations.ResetValues : Prop :=
  ([Reg.r0, .r1, .r2, .r3, .r4, .r5, .r6, .r7].map State.reset.reg) =
    [0x00#8, 0x00#8, 0x00#8, 0x00#8, 0x00#8, 0x00#8, 0x00#8, 0xF4#8] ∧
  State.reset.pc = 0x00#8 ∧ State.reset.fl = 0x00#8 ∧ (∀ a, State.reset.memRead a = 0x00#8) ∧
  State.reset.run = .idle ∧ State.reset.out = [] ∧ State.reset.reports = []

/-- The launch state of an image that fits: image byte i at address i, zero above (decision D4, log 9), everything else as
reset leaves it, and running; a longer image has no launch state (50_host_interface.md R172, R175; decision D14, log 20). -/
def Obligations.LaunchState : Prop :=
  ∀ image : List Byte,
    (image.length ≤ 256 → ∃ s, launch image = some s ∧
      (∀ a : Byte, s.memRead a = image.getD a.toNat 0x00#8) ∧
      (∀ r, s.reg r = if r = .r7 then 0xF4#8 else 0x00#8) ∧
      s.pc = 0x00#8 ∧ s.fl = 0x00#8 ∧ s.run = .running ∧ s.out = [] ∧ s.reports = []) ∧
    (256 < image.length → launch image = none)

/-- A launch state meets the invariant, so with StepKeepsInvariant every state of every run does. -/
def Obligations.LaunchMeetsInvariant : Prop :=
  ∀ (image : List Byte) (s : State), launch image = some s → s.Inv

/-- The host changes state by reset at any time, and by load and start in `Idle` only: load writes the one byte, start makes
the engine run, and outside `Idle` both are ignored (50_host_interface.md R170, R171; decision D11, log 4, log 20). -/
def Obligations.HostActsOnlyInIdle : Prop :=
  ∀ (s : State) (addr data : Byte),
    hostEvent .reset s = State.reset ∧
    (s.run ≠ .idle → hostEvent (.load addr data) s = s ∧ hostEvent .start s = s) ∧
    (s.run = .idle →
      (hostEvent (.load addr data) s).memRead addr = data ∧ MemSameExcept addr s (hostEvent (.load addr data) s) ∧
      SameButMem s (hostEvent (.load addr data) s) ∧
      (hostEvent .start s).run = .running ∧ ArchSame s (hostEvent .start s))

/-- The level ports by run state: `halted` in `Halted` only, `faulted` in `Faulted(c)` only, `fault_cause` 0, 1 or 2
(50_host_interface.md R170, 60_exceptions.md R191; decisions D11, D22). -/
def Obligations.LevelPorts : Prop :=
  ∀ s : State,
    (haltedPort s = true ↔ s.run = .halted) ∧
    (faultedPort s = true ↔ ∃ c, s.run = .faulted c) ∧
    (s.run = .faulted .invalidRegisterIndex → faultCausePort s = 1#2) ∧
    (s.run = .faulted .unsupportedAluOp → faultCausePort s = 2#2) ∧
    ((∀ c, s.run ≠ .faulted c) → faultCausePort s = 0#2)
end

