-- ==== Sys2Proof/Laws/Decode.lean ====
section
/-! SUPPORT. Small lemmas of the decoder's parts: the dispatch multiplexer, the operand count, the formats. -/

namespace Sys2Proof

@[simp] theorem dispatch_opcode (h : Handler) : dispatch h.opcode = some h := by cases h <;> rfl

theorem operandCount_opcode (i : Instr) : operandCount i.handler.opcode = i.operands.length := by
  cases i <;> simp [operandCount, Instr.handler, Handler.opcode, Instr.operands]

/-- The multiplexer selects a handler only for that handler's opcode value. -/
theorem dispatch_eq_some {ir : Byte} {h : Handler} (hd : dispatch ir = some h) : ir = h.opcode := by
  simp only [dispatch, opcodeTable, List.lookup_cons, List.lookup_nil] at hd
  repeat' split at hd
  all_goals first
    | (next hb => exact (beq_iff_eq.1 hb).trans (by cases hd; rfl))
    | cases hd

theorem opcode_recognized (h : Handler) : h.opcode ∈ Machine.recognizedOpcodes := by cases h <;> decide

/-- No handler is registered exactly for the values outside the table. -/
theorem dispatch_eq_none_iff (ir : Byte) : dispatch ir = none ↔ ir ∉ Machine.recognizedOpcodes := by
  constructor
  · intro hd hm
    have hall : ∀ v ∈ Machine.recognizedOpcodes, dispatch v ≠ none := by decide
    exact hall ir hm hd
  · intro hn
    cases hd : dispatch ir with
    | none => rfl
    | some h => exact absurd (dispatch_eq_some hd ▸ opcode_recognized h) hn

theorem decode_cons (ir : Byte) (bs : List Byte) :
    decode (ir :: bs) = match dispatch ir with
      | none => .error (.unrecognizedOpcode ir)
      | some h => assemble ir h bs := rfl

theorem takeOp1_eq_ok {ir : Byte} {mk : Byte → Instr} {bs : List Byte} {i : Instr} {rest : List Byte}
    (h : takeOp1 ir mk bs = .ok (i, rest)) : ∃ a, bs = a :: rest ∧ i = mk a := by
  cases bs with
  | nil => cases h
  | cons a bs => cases h; exact ⟨a, rfl, rfl⟩

theorem takeOp2_eq_ok {ir : Byte} {mk : Byte → Byte → Instr} {bs : List Byte} {i : Instr} {rest : List Byte}
    (h : takeOp2 ir mk bs = .ok (i, rest)) : ∃ a b, bs = a :: b :: rest ∧ i = mk a b := by
  match bs, h with
  | a :: b :: bs, h => cases h; exact ⟨a, b, rfl, rfl⟩

/-- What the formats give back: an instruction of that handler whose operand bytes are the ones taken. -/
theorem assemble_eq_ok {ir : Byte} {h : Handler} {bs : List Byte} {i : Instr} {rest : List Byte}
    (ha : assemble ir h bs = .ok (i, rest)) : i.handler = h ∧ bs = i.operands ++ rest := by
  cases h <;> simp only [assemble] at ha <;>
    first
    | (cases ha; exact ⟨rfl, rfl⟩)
    | (obtain ⟨a, rfl, rfl⟩ := takeOp1_eq_ok ha; exact ⟨rfl, rfl⟩)
    | (obtain ⟨a, b, rfl, rfl⟩ := takeOp2_eq_ok ha; exact ⟨rfl, rfl⟩)

/-- The formats take exactly the operand bytes of an instruction. -/
theorem assemble_operands (i : Instr) (rest : List Byte) :
    assemble i.handler.opcode i.handler (i.operands ++ rest) = .ok (i, rest) := by cases i <;> rfl

end Sys2Proof
end

