-- ==== Sys2Proof/Laws/State.lean ====
section
/-! SUPPORT. What each update of State does to each field, true by rfl, so that no proof unfolds a record update; and the
register file's read-after-write law. -/

namespace Sys2Proof.Machine

theorem RegFile.get_set (f : RegFile) (r q : Reg) (v : Byte) : (f.set r v).get q = if q = r then v else f.get q := by
  cases r <;> cases q <;> rfl

/-- Two register files with equal registers are equal. -/
theorem RegFile.ext_get (f g : RegFile) (h : ∀ r, f.get r = g.get r) : f = g := by
  obtain ⟨a0, a1, a2, a3, a4, a5, a6, a7⟩ := f
  obtain ⟨b0, b1, b2, b3, b4, b5, b6, b7⟩ := g
  have h0 : a0 = b0 := h .r0
  have h1 : a1 = b1 := h .r1
  have h2 : a2 = b2 := h .r2
  have h3 : a3 = b3 := h .r3
  have h4 : a4 = b4 := h .r4
  have h5 : a5 = b5 := h .r5
  have h6 : a6 = b6 := h .r6
  have h7 : a7 = b7 := h .r7
  subst h0 h1 h2 h3 h4 h5 h6 h7
  rfl

@[simp] theorem State.setReg_regs (s : State) (r : Reg) (v : Byte) : (s.setReg r v).regs = s.regs.set r v := rfl
@[simp] theorem State.setReg_pc (s : State) (r : Reg) (v : Byte) : (s.setReg r v).pc = s.pc := rfl
@[simp] theorem State.setReg_fl (s : State) (r : Reg) (v : Byte) : (s.setReg r v).fl = s.fl := rfl
@[simp] theorem State.setReg_mem (s : State) (r : Reg) (v : Byte) : (s.setReg r v).mem = s.mem := rfl
@[simp] theorem State.setReg_run (s : State) (r : Reg) (v : Byte) : (s.setReg r v).run = s.run := rfl
@[simp] theorem State.setReg_out (s : State) (r : Reg) (v : Byte) : (s.setReg r v).out = s.out := rfl
@[simp] theorem State.setReg_reports (s : State) (r : Reg) (v : Byte) : (s.setReg r v).reports = s.reports := rfl

@[simp] theorem State.memWrite_regs (s : State) (a v : Byte) : (s.memWrite a v).regs = s.regs := rfl
@[simp] theorem State.memWrite_pc (s : State) (a v : Byte) : (s.memWrite a v).pc = s.pc := rfl
@[simp] theorem State.memWrite_fl (s : State) (a v : Byte) : (s.memWrite a v).fl = s.fl := rfl
@[simp] theorem State.memWrite_mem (s : State) (a v : Byte) : (s.memWrite a v).mem = s.mem.write a v := rfl
@[simp] theorem State.memWrite_run (s : State) (a v : Byte) : (s.memWrite a v).run = s.run := rfl
@[simp] theorem State.memWrite_out (s : State) (a v : Byte) : (s.memWrite a v).out = s.out := rfl
@[simp] theorem State.memWrite_reports (s : State) (a v : Byte) : (s.memWrite a v).reports = s.reports := rfl

@[simp] theorem State.setPc_regs (s : State) (v : Byte) : (s.setPc v).regs = s.regs := rfl
@[simp] theorem State.setPc_pc (s : State) (v : Byte) : (s.setPc v).pc = v := rfl
@[simp] theorem State.setPc_fl (s : State) (v : Byte) : (s.setPc v).fl = s.fl := rfl
@[simp] theorem State.setPc_mem (s : State) (v : Byte) : (s.setPc v).mem = s.mem := rfl
@[simp] theorem State.setPc_run (s : State) (v : Byte) : (s.setPc v).run = s.run := rfl
@[simp] theorem State.setPc_out (s : State) (v : Byte) : (s.setPc v).out = s.out := rfl
@[simp] theorem State.setPc_reports (s : State) (v : Byte) : (s.setPc v).reports = s.reports := rfl

@[simp] theorem State.advancePc_regs (s : State) (v : Byte) : (s.advancePc v).regs = s.regs := rfl
@[simp] theorem State.advancePc_pc (s : State) (v : Byte) : (s.advancePc v).pc = s.pc + v := rfl
@[simp] theorem State.advancePc_fl (s : State) (v : Byte) : (s.advancePc v).fl = s.fl := rfl
@[simp] theorem State.advancePc_mem (s : State) (v : Byte) : (s.advancePc v).mem = s.mem := rfl
@[simp] theorem State.advancePc_run (s : State) (v : Byte) : (s.advancePc v).run = s.run := rfl
@[simp] theorem State.advancePc_out (s : State) (v : Byte) : (s.advancePc v).out = s.out := rfl
@[simp] theorem State.advancePc_reports (s : State) (v : Byte) : (s.advancePc v).reports = s.reports := rfl

@[simp] theorem State.setFl_regs (s : State) (v : Byte) : (s.setFl v).regs = s.regs := rfl
@[simp] theorem State.setFl_pc (s : State) (v : Byte) : (s.setFl v).pc = s.pc := rfl
@[simp] theorem State.setFl_fl (s : State) (v : Byte) : (s.setFl v).fl = v := rfl
@[simp] theorem State.setFl_mem (s : State) (v : Byte) : (s.setFl v).mem = s.mem := rfl
@[simp] theorem State.setFl_run (s : State) (v : Byte) : (s.setFl v).run = s.run := rfl
@[simp] theorem State.setFl_out (s : State) (v : Byte) : (s.setFl v).out = s.out := rfl
@[simp] theorem State.setFl_reports (s : State) (v : Byte) : (s.setFl v).reports = s.reports := rfl

@[simp] theorem State.emit_regs (s : State) (v : Byte) : (s.emit v).regs = s.regs := rfl
@[simp] theorem State.emit_pc (s : State) (v : Byte) : (s.emit v).pc = s.pc := rfl
@[simp] theorem State.emit_fl (s : State) (v : Byte) : (s.emit v).fl = s.fl := rfl
@[simp] theorem State.emit_mem (s : State) (v : Byte) : (s.emit v).mem = s.mem := rfl
@[simp] theorem State.emit_run (s : State) (v : Byte) : (s.emit v).run = s.run := rfl
@[simp] theorem State.emit_out (s : State) (v : Byte) : (s.emit v).out = s.out ++ [v] := rfl
@[simp] theorem State.emit_reports (s : State) (v : Byte) : (s.emit v).reports = s.reports := rfl

@[simp] theorem State.stall_regs (s : State) (ir : Byte) : (s.stall ir).regs = s.regs := rfl
@[simp] theorem State.stall_pc (s : State) (ir : Byte) : (s.stall ir).pc = s.pc := rfl
@[simp] theorem State.stall_fl (s : State) (ir : Byte) : (s.stall ir).fl = s.fl := rfl
@[simp] theorem State.stall_mem (s : State) (ir : Byte) : (s.stall ir).mem = s.mem := rfl
@[simp] theorem State.stall_run (s : State) (ir : Byte) : (s.stall ir).run = s.run := rfl
@[simp] theorem State.stall_out (s : State) (ir : Byte) : (s.stall ir).out = s.out := rfl
@[simp] theorem State.stall_reports (s : State) (ir : Byte) : (s.stall ir).reports = s.reports ++ [.unrecognizedOpcode ir] := rfl

@[simp] theorem State.setRun_regs (s : State) (v : RunState) : (s.setRun v).regs = s.regs := rfl
@[simp] theorem State.setRun_pc (s : State) (v : RunState) : (s.setRun v).pc = s.pc := rfl
@[simp] theorem State.setRun_fl (s : State) (v : RunState) : (s.setRun v).fl = s.fl := rfl
@[simp] theorem State.setRun_mem (s : State) (v : RunState) : (s.setRun v).mem = s.mem := rfl
@[simp] theorem State.setRun_run (s : State) (v : RunState) : (s.setRun v).run = v := rfl
@[simp] theorem State.setRun_out (s : State) (v : RunState) : (s.setRun v).out = s.out := rfl
@[simp] theorem State.setRun_reports (s : State) (v : RunState) : (s.setRun v).reports = s.reports := rfl

@[simp] theorem State.raise_regs (s : State) (c : FaultCause) : (s.raise c).regs = s.regs := rfl
@[simp] theorem State.raise_pc (s : State) (c : FaultCause) : (s.raise c).pc = s.pc := rfl
@[simp] theorem State.raise_fl (s : State) (c : FaultCause) : (s.raise c).fl = s.fl := rfl
@[simp] theorem State.raise_mem (s : State) (c : FaultCause) : (s.raise c).mem = s.mem := rfl
@[simp] theorem State.raise_run (s : State) (c : FaultCause) : (s.raise c).run = .faulted c := rfl
@[simp] theorem State.raise_out (s : State) (c : FaultCause) : (s.raise c).out = s.out := rfl
@[simp] theorem State.raise_reports (s : State) (c : FaultCause) : (s.raise c).reports = s.reports := rfl

@[simp] theorem State.decSp_regs (s : State) : (s.decSp).regs = s.regs.set .r7 (s.sp - 1#8) := rfl
@[simp] theorem State.decSp_pc (s : State) : (s.decSp).pc = s.pc := rfl
@[simp] theorem State.decSp_fl (s : State) : (s.decSp).fl = s.fl := rfl
@[simp] theorem State.decSp_mem (s : State) : (s.decSp).mem = s.mem := rfl
@[simp] theorem State.decSp_run (s : State) : (s.decSp).run = s.run := rfl
@[simp] theorem State.decSp_out (s : State) : (s.decSp).out = s.out := rfl
@[simp] theorem State.decSp_reports (s : State) : (s.decSp).reports = s.reports := rfl

@[simp] theorem State.incSp_regs (s : State) : (s.incSp).regs = s.regs.set .r7 (s.sp + 1#8) := rfl
@[simp] theorem State.incSp_pc (s : State) : (s.incSp).pc = s.pc := rfl
@[simp] theorem State.incSp_fl (s : State) : (s.incSp).fl = s.fl := rfl
@[simp] theorem State.incSp_mem (s : State) : (s.incSp).mem = s.mem := rfl
@[simp] theorem State.incSp_run (s : State) : (s.incSp).run = s.run := rfl
@[simp] theorem State.incSp_out (s : State) : (s.incSp).out = s.out := rfl
@[simp] theorem State.incSp_reports (s : State) : (s.incSp).reports = s.reports := rfl

/-! The same for the two views proofs use: one register, one byte of memory. -/

theorem State.setReg_reg (s : State) (r q : Reg) (v : Byte) :
    (s.setReg r v).reg q = if q = r then v else s.reg q := RegFile.get_set s.regs r q v
@[simp] theorem State.setReg_reg_self (s : State) (r : Reg) (v : Byte) : (s.setReg r v).reg r = v := by
  simp [State.setReg_reg]
@[simp] theorem State.setReg_reg_ne (s : State) (r q : Reg) (v : Byte) (h : q ≠ r) :
    (s.setReg r v).reg q = s.reg q := by
  simp [State.setReg_reg, h]
@[simp] theorem State.setReg_memRead (s : State) (r : Reg) (v : Byte) (x : Byte) : (s.setReg r v).memRead x = s.memRead x := rfl

@[simp] theorem State.memWrite_reg (s : State) (a v : Byte) (q : Reg) : (s.memWrite a v).reg q = s.reg q := rfl
@[simp] theorem State.memWrite_sp (s : State) (a v : Byte) : (s.memWrite a v).sp = s.sp := rfl

@[simp] theorem State.setPc_reg (s : State) (v : Byte) (q : Reg) : (s.setPc v).reg q = s.reg q := rfl
@[simp] theorem State.setPc_sp (s : State) (v : Byte) : (s.setPc v).sp = s.sp := rfl
@[simp] theorem State.setPc_memRead (s : State) (v : Byte) (x : Byte) : (s.setPc v).memRead x = s.memRead x := rfl

@[simp] theorem State.advancePc_reg (s : State) (v : Byte) (q : Reg) : (s.advancePc v).reg q = s.reg q := rfl
@[simp] theorem State.advancePc_sp (s : State) (v : Byte) : (s.advancePc v).sp = s.sp := rfl
@[simp] theorem State.advancePc_memRead (s : State) (v : Byte) (x : Byte) : (s.advancePc v).memRead x = s.memRead x := rfl

@[simp] theorem State.setFl_reg (s : State) (v : Byte) (q : Reg) : (s.setFl v).reg q = s.reg q := rfl
@[simp] theorem State.setFl_sp (s : State) (v : Byte) : (s.setFl v).sp = s.sp := rfl
@[simp] theorem State.setFl_memRead (s : State) (v : Byte) (x : Byte) : (s.setFl v).memRead x = s.memRead x := rfl

@[simp] theorem State.emit_reg (s : State) (v : Byte) (q : Reg) : (s.emit v).reg q = s.reg q := rfl
@[simp] theorem State.emit_sp (s : State) (v : Byte) : (s.emit v).sp = s.sp := rfl
@[simp] theorem State.emit_memRead (s : State) (v : Byte) (x : Byte) : (s.emit v).memRead x = s.memRead x := rfl

@[simp] theorem State.stall_reg (s : State) (ir : Byte) (q : Reg) : (s.stall ir).reg q = s.reg q := rfl
@[simp] theorem State.stall_sp (s : State) (ir : Byte) : (s.stall ir).sp = s.sp := rfl
@[simp] theorem State.stall_memRead (s : State) (ir : Byte) (x : Byte) : (s.stall ir).memRead x = s.memRead x := rfl

@[simp] theorem State.setRun_reg (s : State) (v : RunState) (q : Reg) : (s.setRun v).reg q = s.reg q := rfl
@[simp] theorem State.setRun_sp (s : State) (v : RunState) : (s.setRun v).sp = s.sp := rfl
@[simp] theorem State.setRun_memRead (s : State) (v : RunState) (x : Byte) : (s.setRun v).memRead x = s.memRead x := rfl

@[simp] theorem State.raise_reg (s : State) (c : FaultCause) (q : Reg) : (s.raise c).reg q = s.reg q := rfl
@[simp] theorem State.raise_sp (s : State) (c : FaultCause) : (s.raise c).sp = s.sp := rfl
@[simp] theorem State.raise_memRead (s : State) (c : FaultCause) (x : Byte) : (s.raise c).memRead x = s.memRead x := rfl

@[simp] theorem State.decSp_sp (s : State) : s.decSp.sp = s.sp - 1#8 := rfl
theorem State.decSp_reg (s : State) (q : Reg) :
    s.decSp.reg q = if q = .r7 then s.sp - 1#8 else s.reg q := RegFile.get_set s.regs .r7 q _
@[simp] theorem State.decSp_memRead (s : State) (x : Byte) : (s.decSp).memRead x = s.memRead x := rfl

@[simp] theorem State.incSp_sp (s : State) : s.incSp.sp = s.sp + 1#8 := rfl
theorem State.incSp_reg (s : State) (q : Reg) :
    s.incSp.reg q = if q = .r7 then s.sp + 1#8 else s.reg q := RegFile.get_set s.regs .r7 q _
@[simp] theorem State.incSp_memRead (s : State) (x : Byte) : (s.incSp).memRead x = s.memRead x := rfl

theorem State.sp_eq (s : State) : s.sp = s.reg .r7 := rfl

end Sys2Proof.Machine
end

