-- ==== Sys2Proof/Laws/Memory.lean ====
section
/-! SUPPORT. Memory: read after write at every state (canonical or not), and every memory operation keeps the canonical
form. -/

namespace Sys2Proof.Machine

theorem Memory.lookup_remove (m : Memory) (k j : Nat) :
    (m.remove k).lookup j = if j = k then Config.memFill else m.lookup j := by
  induction m with
  | nil => simp [Memory.remove, Memory.lookup]
  | cons c m ih =>
    rw [Memory.remove] at ih ⊢
    by_cases hc : c.1 = k
    · rw [List.filter_cons_of_neg (by simp [hc]), ih, Memory.lookup]
      by_cases hj : j = k
      · simp [hj]
      · have : c.1 ≠ j := by omega
        simp [hj, this]
    · rw [List.filter_cons_of_pos (by simp [hc]), Memory.lookup, ih, Memory.lookup]
      by_cases hj : j = k
      · have : c.1 ≠ j := by omega
        simp [hj, hc]
      · simp [hj]

theorem Memory.lookup_place (m : Memory) (k j : Nat) (v : Byte) (h : ∀ c ∈ m, c.1 ≠ k) :
    (m.place k v).lookup j = if j = k then v else m.lookup j := by
  induction m with
  | nil => simp [Memory.place, Memory.lookup, eq_comm]
  | cons c m ih =>
    have hc : c.1 ≠ k := h c (by simp)
    have ih := ih fun d hd => h d (by simp [hd])
    rw [Memory.place]
    split
    · simp [Memory.lookup, eq_comm]
    · rw [Memory.lookup, ih, Memory.lookup]
      by_cases hj : j = k
      · have : c.1 ≠ j := by omega
        simp [hj, hc]
      · simp [hj]

theorem Memory.mem_remove {m : Memory} {k : Nat} {c : Host.Cell} : c ∈ m.remove k ↔ c ∈ m ∧ c.1 ≠ k := by
  simp [Memory.remove]

theorem Memory.mem_place {m : Memory} {k : Nat} {v : Byte} {c : Host.Cell} :
    c ∈ m.place k v ↔ c = (k, v) ∨ c ∈ m := by
  induction m with
  | nil => simp [Memory.place]
  | cons d m ih =>
    rw [Memory.place]
    split
    · simp
    · simp [ih, or_left_comm]

/-- Read after write (20_memory.md R55): the byte written, and every other byte as it was. -/
theorem Memory.read_write (m : Memory) (a b v : Byte) :
    (m.write a v).read b = if b = a then v else m.read b := by
  have hab : (b.toNat = a.toNat) ↔ b = a := BitVec.toNat_inj
  unfold Memory.write Memory.read
  split
  · next hv => simp only [Memory.lookup_remove, hab, hv]
  · rw [Memory.lookup_place _ _ _ _ fun c hc => (Memory.mem_remove.1 hc).2, Memory.lookup_remove]
    simp only [hab]
    split <;> rfl

theorem Memory.remove_wf {m : Memory} (h : m.wf) (k : Nat) : (m.remove k).wf :=
  ⟨h.1.filter _, fun c hc => h.2 c (Memory.mem_remove.1 hc).1⟩

theorem Memory.place_wf {m : Memory} (h : m.wf) {k : Nat} {v : Byte} (hk : k < Config.memSize) (hv : v ≠ Config.memFill)
    (hn : ∀ c ∈ m, c.1 ≠ k) : (m.place k v).wf := by
  refine ⟨?_, fun c hc => ?_⟩
  · have hs := h.1
    clear h
    induction m with
    | nil => simp [Memory.place]
    | cons d m ih =>
      have hd := List.pairwise_cons.1 hs
      rw [Memory.place]
      split
      · next hlt =>
        refine List.pairwise_cons.2 ⟨fun c hc => ?_, hs⟩
        obtain rfl | hc := List.mem_cons.1 hc
        · exact hlt
        · exact lt_trans hlt (hd.1 c hc)
      · next hge =>
        have hne := hn d (by simp)
        refine List.pairwise_cons.2 ⟨fun c hc => ?_, ih (fun c hc => hn c (by simp [hc])) hd.2⟩
        obtain rfl | hc := Memory.mem_place.1 hc
        · show d.1 < k
          omega
        · exact hd.1 c hc
  · obtain rfl | hc := Memory.mem_place.1 hc
    · exact ⟨hk, hv⟩
    · exact h.2 c hc

/-- A write keeps the canonical form. -/
theorem Memory.write_wf {m : Memory} (h : m.wf) (a v : Byte) : (m.write a v).wf := by
  unfold Memory.write
  split
  · exact Memory.remove_wf h _
  · next hv =>
    exact Memory.place_wf (Memory.remove_wf h _) a.isLt hv fun c hc => (Memory.mem_remove.1 hc).2

theorem State.memWrite_memRead (s : State) (a v b : Byte) :
    (s.memWrite a v).memRead b = if b = a then v else s.memRead b := Memory.read_write s.mem a b v

@[simp] theorem State.memWrite_memRead_self (s : State) (a v : Byte) : (s.memWrite a v).memRead a = v := by
  simp [State.memWrite_memRead]

@[simp] theorem State.memWrite_memRead_ne (s : State) (a v b : Byte) (h : b ≠ a) :
    (s.memWrite a v).memRead b = s.memRead b := by
  simp [State.memWrite_memRead, h]

theorem State.reset_mem_wf : State.reset.mem.wf := ⟨List.Pairwise.nil, fun _ hc => nomatch hc⟩

theorem State.storeBytes_mem_wf {s : State} (h : s.mem.wf) (a : Byte) (vs : List Byte) : (s.storeBytes a vs).mem.wf := by
  induction vs generalizing s a with
  | nil => exact h
  | cons v vs ih => exact ih (Memory.write_wf h a v) _

/-- In canonical form, memories that read alike are equal. -/
theorem Memory.eq_of_lookup {m n : Memory} (hm : m.wf) (hn : n.wf) (h : ∀ k, m.lookup k = n.lookup k) : m = n := by
  have below : ∀ (l : Memory) (k : Nat), (∀ c ∈ l, k < c.1) → l.lookup k = Config.memFill := by
    intro l k hl
    induction l with
    | nil => rfl
    | cons c l ih =>
      have : c.1 ≠ k := by have := hl c (by simp); omega
      rw [Memory.lookup, if_neg this]
      exact ih fun d hd => hl d (by simp [hd])
  induction m generalizing n with
  | nil =>
    cases n with
    | nil => rfl
    | cons d n =>
      exact absurd (h d.1).symm (by simpa [Memory.lookup] using (hn.2 d (by simp)).2)
  | cons c m ih =>
    have hc := List.pairwise_cons.1 hm.1
    cases n with
    | nil => exact absurd (h c.1) (by simpa [Memory.lookup] using (hm.2 c (by simp)).2)
    | cons d n =>
      have hd := List.pairwise_cons.1 hn.1
      have hcf := (hm.2 c (by simp)).2
      have hdf := (hn.2 d (by simp)).2
      have hk : c.1 = d.1 := by
        by_contra hne
        rcases Nat.lt_or_gt_of_ne hne with hlt | hlt
        · have := h c.1
          rw [below (d :: n) c.1 (by
            intro e he
            obtain rfl | he := List.mem_cons.1 he
            · exact hlt
            · exact lt_trans hlt (hd.1 e he)), Memory.lookup, if_pos rfl] at this
          exact hcf this
        · have := h d.1
          rw [below (c :: m) d.1 (by
            intro e he
            obtain rfl | he := List.mem_cons.1 he
            · exact hlt
            · exact lt_trans hlt (hc.1 e he)), Memory.lookup, if_pos rfl] at this
          exact hdf this.symm
      have hv : c.2 = d.2 := by
        have := h c.1
        rwa [Memory.lookup, if_pos rfl, Memory.lookup, if_pos hk.symm] at this
      have hcd : c = d := Prod.ext hk hv
      subst hcd
      refine congrArg _ (ih ⟨hc.2, fun e he => hm.2 e (by simp [he])⟩ ⟨hd.2, fun e he => hn.2 e (by simp [he])⟩ ?_)
      intro k
      by_cases hck : c.1 = k
      · subst hck
        rw [below m _ hc.1, below n _ hd.1]
      · have := h k
        rwa [Memory.lookup, if_neg hck, Memory.lookup, if_neg hck] at this

end Sys2Proof.Machine
end

