-- ==== Sys2Proof/Laws/Ops.lean ====
section
/-! SUPPORT. One lemma per shared operation of the meanings: what it can do, so that proofs cite it instead of unfolding
it. -/

namespace Sys2Proof.Machine

/-! Operand bytes. -/

@[simp] theorem Reg.ofByte_byte (r : Reg) : Reg.ofByte r.byte = some r := by cases r <;> rfl

theorem Reg.byte_injective {r q : Reg} (h : r.byte = q.byte) : r = q := by
  have := congrArg Reg.ofByte h
  simpa using this

/-- Every byte names a register or is illegal. -/
theorem Reg.ofByte_cases (a : Byte) :
    (∃ r : Reg, a = r.byte ∧ Reg.ofByte a = some r ∧ legalRegByte a = true) ∨
      (Reg.ofByte a = none ∧ legalRegByte a = false) := by
  by_cases h : a.toNat < 8
  · left
    have hl : legalRegByte a = true := decide_eq_true h
    have he : ∀ r : Reg, a.toNat = r.byte.toNat → a = r.byte := fun r hr => BitVec.eq_of_toNat_eq hr
    have key : ∀ r : Reg, a.toNat = r.byte.toNat →
        ∃ r : Reg, a = r.byte ∧ Reg.ofByte a = some r ∧ legalRegByte a = true :=
      fun r hr => ⟨r, he r hr, by rw [he r hr, Reg.ofByte_byte], hl⟩
    have hcases : a.toNat = 0 ∨ a.toNat = 1 ∨ a.toNat = 2 ∨ a.toNat = 3 ∨ a.toNat = 4 ∨ a.toNat = 5 ∨ a.toNat = 6 ∨
        a.toNat = 7 := by omega
    rcases hcases with h | h | h | h | h | h | h | h
    · exact key .r0 h
    · exact key .r1 h
    · exact key .r2 h
    · exact key .r3 h
    · exact key .r4 h
    · exact key .r5 h
    · exact key .r6 h
    · exact key .r7 h
  · right
    refine ⟨?_, decide_eq_false h⟩
    unfold Reg.ofByte
    split <;> first | omega | rfl

@[simp] theorem legalRegByte_byte (r : Reg) : legalRegByte r.byte = true := by cases r <;> rfl

theorem Reg.ofByte_eq_none {a : Byte} (h : legalRegByte a = false) : Reg.ofByte a = none := by
  obtain ⟨r, -, -, hl⟩ | ⟨hn, -⟩ := Reg.ofByte_cases a
  · simp [hl] at h
  · exact hn

theorem Reg.exists_byte {a : Byte} (h : legalRegByte a = true) : ∃ r : Reg, a = r.byte := by
  obtain ⟨r, hr, -⟩ | ⟨-, hl⟩ := Reg.ofByte_cases a
  · exact ⟨r, hr⟩
  · simp [hl] at h

/-! The operand check. -/

@[simp] theorem withReg_byte (r : Reg) (s : State) (k : Reg → Result) : withReg r.byte s k = k r := by
  simp [withReg]

theorem withReg_illegal {a : Byte} (h : legalRegByte a = false) (s : State) (k : Reg → Result) :
    withReg a s k = .next (s.raise .invalidRegisterIndex) := by
  simp [withReg, Reg.ofByte_eq_none h]

@[simp] theorem withRegs_byte (r q : Reg) (s : State) (k : Reg → Reg → Result) : withRegs r.byte q.byte s k = k r q := by
  simp [withRegs]

theorem withRegs_illegal {a b : Byte} (h : (legalRegByte a && legalRegByte b) = false) (s : State)
    (k : Reg → Reg → Result) : withRegs a b s k = .next (s.raise .invalidRegisterIndex) := by
  obtain ⟨r, rfl, -⟩ | ⟨-, ha⟩ := Reg.ofByte_cases a
  · rw [withRegs, withReg_byte, withReg_illegal (by simpa using h)]
  · exact withReg_illegal ha _ _

/-! The ALU. -/

theorem alu_add (ra rb : Reg) (s : State) : alu .add ra rb s = .ok (s.setReg ra (s.reg ra + s.reg rb)) := rfl
theorem alu_mul (ra rb : Reg) (s : State) : alu .mul ra rb s = .ok (s.setReg ra (s.reg ra * s.reg rb)) := rfl
theorem alu_cmp (ra rb : Reg) (s : State) : alu .cmp ra rb s = .ok (s.setFl (compareFlags (s.reg ra) (s.reg rb))) := rfl

/-- An ALU handler on legal operands whose tag the ALU supports. -/
theorem aluHandler_byte {tag : AluTag} {ra rb : Reg} {s t : State} (h : alu tag ra rb s = .ok t) :
    aluHandler tag ra.byte rb.byte s = .next (t.advancePc 3#8) := by
  simp [aluHandler, h]

theorem aluHandler_illegal {a b : Byte} (h : (legalRegByte a && legalRegByte b) = false) (tag : AluTag) (s : State) :
    aluHandler tag a b s = .next (s.raise .invalidRegisterIndex) := withRegs_illegal h _ _

/-! Flags. -/

theorem compareFlags_self (v : Byte) : compareFlags v v = 0x01#8 := by simp [compareFlags]

/-- The three outcomes of a comparison (42_alu.md R126). -/
theorem compareFlags_cases (va vb : Byte) :
    (va.toNat = vb.toNat ∧ compareFlags va vb = 0x01#8) ∨ (vb.toNat < va.toNat ∧ compareFlags va vb = 0x02#8) ∨
      (va.toNat < vb.toNat ∧ compareFlags va vb = 0x04#8) := by
  unfold compareFlags
  rcases lt_trichotomy va.toNat vb.toNat with h | h | h
  · right; right
    have hne : va ≠ vb := fun e => by simp [e] at h
    simp [h, hne]
  · left
    have he : va = vb := BitVec.eq_of_toNat_eq h
    simp [he]
  · right; left
    have hne : va ≠ vb := fun e => by simp [e] at h
    have hnl : ¬ va.toNat < vb.toNat := by omega
    exact ⟨h, by simp only [hne, hnl, if_false]⟩

/-! The stack. -/

theorem State.pushByte_eq (s : State) (value : State → Byte) :
    s.pushByte value = s.decSp.memWrite (s.sp - 1#8) (value s.decSp) := rfl

@[simp] theorem State.pushByte_regs (s : State) (value : State → Byte) :
    (s.pushByte value).regs = s.regs.set .r7 (s.sp - 1#8) := rfl
@[simp] theorem State.pushByte_pc (s : State) (value : State → Byte) : (s.pushByte value).pc = s.pc := rfl
@[simp] theorem State.pushByte_fl (s : State) (value : State → Byte) : (s.pushByte value).fl = s.fl := rfl
@[simp] theorem State.pushByte_mem (s : State) (value : State → Byte) :
    (s.pushByte value).mem = s.mem.write (s.sp - 1#8) (value s.decSp) := rfl
@[simp] theorem State.pushByte_run (s : State) (value : State → Byte) : (s.pushByte value).run = s.run := rfl
@[simp] theorem State.pushByte_out (s : State) (value : State → Byte) : (s.pushByte value).out = s.out := rfl
@[simp] theorem State.pushByte_reports (s : State) (value : State → Byte) :
    (s.pushByte value).reports = s.reports := rfl
@[simp] theorem State.pushByte_sp (s : State) (value : State → Byte) : (s.pushByte value).sp = s.sp - 1#8 := rfl

theorem State.pushByte_reg (s : State) (value : State → Byte) (q : Reg) :
    (s.pushByte value).reg q = if q = .r7 then s.sp - 1#8 else s.reg q := RegFile.get_set s.regs .r7 q _

theorem State.pushByte_memRead (s : State) (value : State → Byte) (b : Byte) :
    (s.pushByte value).memRead b = if b = s.sp - 1#8 then value s.decSp else s.memRead b :=
  Memory.read_write s.mem _ _ _

/-! The next-pc multiplexer. -/

theorem State.branch_eq (s : State) (k : Bool) (target : Byte) :
    s.branch k target = s.setPc (if k then target else s.pc + 2#8) := by
  cases k <;> rfl

end Sys2Proof.Machine
end

