-- ==== Sys2Proof/Laws/Exec.lean ====
section
/-! SUPPORT. One spec lemma per instruction: the state its handler answers on legal operands, as updates of the state it
starts from; the fault on an illegal one; and that a handler always answers a next state. -/

namespace Sys2Proof.Machine

theorem exec_hlt (s : State) : exec .hlt s = .next (s.setRun .halted) := rfl

theorem exec_ldi (r : Reg) (b : Byte) (s : State) : exec (.ldi r.byte b) s = .next ((s.setReg r b).advancePc 3#8) :=
  withReg_byte ..

theorem exec_prn (r : Reg) (s : State) : exec (.prn r.byte) s = .next ((s.emit (s.reg r)).advancePc 2#8) :=
  withReg_byte ..

theorem exec_add (ra rb : Reg) (s : State) :
    exec (.add ra.byte rb.byte) s = .next ((s.setReg ra (s.reg ra + s.reg rb)).advancePc 3#8) :=
  aluHandler_byte (alu_add ra rb s)

theorem exec_mul (ra rb : Reg) (s : State) :
    exec (.mul ra.byte rb.byte) s = .next ((s.setReg ra (s.reg ra * s.reg rb)).advancePc 3#8) :=
  aluHandler_byte (alu_mul ra rb s)

theorem exec_cmp (ra rb : Reg) (s : State) :
    exec (.cmp ra.byte rb.byte) s = .next ((s.setFl (compareFlags (s.reg ra) (s.reg rb))).advancePc 3#8) :=
  aluHandler_byte (alu_cmp ra rb s)

theorem exec_push (r : Reg) (s : State) :
    exec (.push r.byte) s = .next ((s.pushByte fun t => t.reg r).advancePc 2#8) := withReg_byte ..

theorem exec_pop (r : Reg) (s : State) :
    exec (.pop r.byte) s = .next ((s.setReg r (s.memRead s.sp)).incSp.advancePc 2#8) := withReg_byte ..

theorem exec_call (r : Reg) (s : State) :
    exec (.call r.byte) s =
      .next ((s.pushByte fun _ => s.pc + 2#8).setPc (if r = .r7 then s.sp - 1#8 else s.reg r)) := by
  rw [← State.pushByte_reg s fun _ => s.pc + 2#8]
  exact withReg_byte ..

theorem exec_ret (s : State) : exec .ret s = .next (s.setPc (s.memRead s.sp)).incSp := rfl

theorem exec_jmp (r : Reg) (s : State) : exec (.jmp r.byte) s = .next (s.setPc (s.reg r)) := withReg_byte ..

theorem exec_jeq (r : Reg) (s : State) :
    exec (.jeq r.byte) s = .next (s.setPc (if s.fl.getLsbD 0 then s.reg r else s.pc + 2#8)) := by
  rw [← State.branch_eq]
  exact withReg_byte ..

theorem exec_jne (r : Reg) (s : State) :
    exec (.jne r.byte) s = .next (s.setPc (if !s.fl.getLsbD 0 then s.reg r else s.pc + 2#8)) := by
  rw [← State.branch_eq]
  exact withReg_byte ..

/-- An instruction with an illegal register operand byte raises the fault and does nothing else. -/
theorem exec_of_not_wf {i : Instr} (hi : i.wf = false) (s : State) :
    exec i s = .next (s.raise .invalidRegisterIndex) := by
  cases i <;> simp only [exec, Instr.wf] at hi ⊢
  all_goals first
    | exact withReg_illegal hi _ _
    | exact aluHandler_illegal hi _ _
    | cases hi

/-- An instruction with legal operands, its register operand bytes named. -/
inductive Legal : Instr → Prop where
  | hlt : Legal .hlt
  | ldi (r : Reg) (b : Byte) : Legal (.ldi r.byte b)
  | prn (r : Reg) : Legal (.prn r.byte)
  | add (r q : Reg) : Legal (.add r.byte q.byte)
  | mul (r q : Reg) : Legal (.mul r.byte q.byte)
  | cmp (r q : Reg) : Legal (.cmp r.byte q.byte)
  | push (r : Reg) : Legal (.push r.byte)
  | pop (r : Reg) : Legal (.pop r.byte)
  | call (r : Reg) : Legal (.call r.byte)
  | ret : Legal .ret
  | jmp (r : Reg) : Legal (.jmp r.byte)
  | jeq (r : Reg) : Legal (.jeq r.byte)
  | jne (r : Reg) : Legal (.jne r.byte)

/-- Every instruction is legal or raises the fault: the case split for claims about all instructions. -/
theorem instr_legal_or_illegal (i : Instr) : (Legal i ∧ i.wf = true) ∨ i.wf = false := by
  cases hw : i.wf with
  | false => exact .inr rfl
  | true =>
    refine .inl ⟨?_, rfl⟩
    cases i <;> simp only [Instr.wf, Bool.and_eq_true] at hw
    case hlt => exact .hlt
    case ret => exact .ret
    case ldi a b => obtain ⟨r, rfl⟩ := Reg.exists_byte hw; exact .ldi r b
    case prn a => obtain ⟨r, rfl⟩ := Reg.exists_byte hw; exact .prn r
    case push a => obtain ⟨r, rfl⟩ := Reg.exists_byte hw; exact .push r
    case pop a => obtain ⟨r, rfl⟩ := Reg.exists_byte hw; exact .pop r
    case call a => obtain ⟨r, rfl⟩ := Reg.exists_byte hw; exact .call r
    case jmp a => obtain ⟨r, rfl⟩ := Reg.exists_byte hw; exact .jmp r
    case jeq a => obtain ⟨r, rfl⟩ := Reg.exists_byte hw; exact .jeq r
    case jne a => obtain ⟨r, rfl⟩ := Reg.exists_byte hw; exact .jne r
    case add a b =>
      obtain ⟨r, rfl⟩ := Reg.exists_byte hw.1
      obtain ⟨q, rfl⟩ := Reg.exists_byte hw.2
      exact .add r q
    case mul a b =>
      obtain ⟨r, rfl⟩ := Reg.exists_byte hw.1
      obtain ⟨q, rfl⟩ := Reg.exists_byte hw.2
      exact .mul r q
    case cmp a b =>
      obtain ⟨r, rfl⟩ := Reg.exists_byte hw.1
      obtain ⟨q, rfl⟩ := Reg.exists_byte hw.2
      exact .cmp r q

/-- A handler always answers a next state: no instruction of this machine stops it with a fault or a refusal of `step`. -/
theorem exec_next (i : Instr) (s : State) : ∃ t, exec i s = .next t := by
  obtain ⟨h, -⟩ | h := instr_legal_or_illegal i
  · cases h
    case hlt => exact ⟨_, exec_hlt s⟩
    case ldi r b => exact ⟨_, exec_ldi r b s⟩
    case prn r => exact ⟨_, exec_prn r s⟩
    case add r q => exact ⟨_, exec_add r q s⟩
    case mul r q => exact ⟨_, exec_mul r q s⟩
    case cmp r q => exact ⟨_, exec_cmp r q s⟩
    case push r => exact ⟨_, exec_push r s⟩
    case pop r => exact ⟨_, exec_pop r s⟩
    case call r => exact ⟨_, exec_call r s⟩
    case ret => exact ⟨_, exec_ret s⟩
    case jmp r => exact ⟨_, exec_jmp r s⟩
    case jeq r => exact ⟨_, exec_jeq r s⟩
    case jne r => exact ⟨_, exec_jne r s⟩
  · exact ⟨_, exec_of_not_wf h s⟩

end Sys2Proof.Machine
end

