-- ==== Sys2Proof/Laws/PerInstr.lean ====
section
/-! SUPPORT. Laws about every instruction as syntax, one lemma per constructor. EncodedLength: the encoding is one byte
longer than the operand count in its opcode byte's bits 7..6 (30_encoding.md R71, R73, R77). -/

namespace Sys2Proof.Laws.EncodedLength

/-- The length of the instruction's encoding is what its first byte announces. -/
def Statement (i : Instr) : Prop := ∃ ir bs, encode i = ir :: bs ∧ bs.length = operandCount ir

theorem ofCount (i : Instr) : Statement i := ⟨_, _, rfl, (operandCount_opcode i).symm⟩

theorem hlt : Statement .hlt := ofCount _
theorem ldi (a b : Byte) : Statement (.ldi a b) := ofCount _
theorem prn (a : Byte) : Statement (.prn a) := ofCount _
theorem add (a b : Byte) : Statement (.add a b) := ofCount _
theorem mul (a b : Byte) : Statement (.mul a b) := ofCount _
theorem cmp (a b : Byte) : Statement (.cmp a b) := ofCount _
theorem push (a : Byte) : Statement (.push a) := ofCount _
theorem pop (a : Byte) : Statement (.pop a) := ofCount _
theorem call (a : Byte) : Statement (.call a) := ofCount _
theorem ret : Statement .ret := ofCount _
theorem jmp (a : Byte) : Statement (.jmp a) := ofCount _
theorem jeq (a : Byte) : Statement (.jeq a) := ofCount _
theorem jne (a : Byte) : Statement (.jne a) := ofCount _

end Sys2Proof.Laws.EncodedLength
end

