-- ==== Sys2Proof/Laws/Step.lean ====
section
/-! SUPPORT. What a fetch holds and what a step can do: the inversion lemmas every claim about `step` rests on. -/

namespace Sys2Proof.Machine

/-- The bytes of an instruction's opcode and operands, as the fetch reads them. -/
theorem State.fetchBytes_cases (s : State) :
    (operandCount s.ir = 0 ∧ s.fetchBytes = [s.ir]) ∨
      (operandCount s.ir = 1 ∧ s.fetchBytes = [s.ir, s.memRead (s.pc + 1#8)]) ∨
        (2 ≤ operandCount s.ir ∧ s.fetchBytes = [s.ir, s.memRead (s.pc + 1#8), s.memRead (s.pc + 2#8)]) := by
  unfold State.fetchBytes
  rcases operandCount s.ir with _ | _ | n
  · exact .inl ⟨rfl, rfl⟩
  · exact .inr (.inl ⟨rfl, rfl⟩)
  · exact .inr (.inr ⟨by omega, rfl⟩)

/-- A fetch decodes, or its opcode is unrecognized: it is never too short. -/
theorem State.decode_fetchBytes (s : State) :
    (∃ i rest, decode s.fetchBytes = .ok (i, rest) ∧ dispatch s.ir = some i.handler) ∨
      (decode s.fetchBytes = .error (.unrecognizedOpcode s.ir) ∧ dispatch s.ir = none) := by
  cases hd : dispatch s.ir with
  | none =>
    right
    rcases s.fetchBytes_cases with ⟨-, h⟩ | ⟨-, h⟩ | ⟨-, h⟩ <;> simp [h, decode_cons, hd]
  | some h =>
    left
    have hir := dispatch_eq_some hd
    have hc : operandCount s.ir = operandCount h.opcode := by rw [hir]
    rcases s.fetchBytes_cases with ⟨hn, hb⟩ | ⟨hn, hb⟩ | ⟨hn, hb⟩ <;> rw [hb, decode_cons, hd] <;>
      rw [hc] at hn <;> cases h <;>
      first
      | exact ⟨_, _, rfl, rfl⟩
      | exact absurd hn (by decide)

/-- `step` of a running engine: a stall, or the handler of the fetched instruction. -/
theorem step_running {s : State} (hr : s.run = .running) :
    (∃ i rest, decode s.fetchBytes = .ok (i, rest) ∧ dispatch s.ir = some i.handler ∧ step s = exec i s) ∨
      (dispatch s.ir = none ∧ step s = .next (s.stall s.ir)) := by
  obtain ⟨i, rest, hd, hh⟩ | ⟨hd, hn⟩ := s.decode_fetchBytes
  · exact .inl ⟨i, rest, hd, hh, by simp [step, State.stepWith, hr, State.dispatchFetched, hd]⟩
  · exact .inr ⟨hn, by simp [step, State.stepWith, hr, State.dispatchFetched, hd]⟩

/-- Everything a step that answers a next state can be: the engine ran, and it stalled or a handler ran. -/
theorem step_next_cases {s t : State} (h : step s = .next t) :
    s.run = .running ∧
      ((∃ i rest, decode s.fetchBytes = .ok (i, rest) ∧ dispatch s.ir = some i.handler ∧ exec i s = .next t) ∨
        (dispatch s.ir = none ∧ t = s.stall s.ir)) := by
  cases hr : s.run with
  | running =>
    refine ⟨rfl, ?_⟩
    obtain ⟨i, rest, hd, hh, he⟩ | ⟨hn, he⟩ := step_running hr
    · exact .inl ⟨i, rest, hd, hh, he ▸ h⟩
    · exact .inr ⟨hn, by simpa using (he.symm.trans h).symm⟩
  | idle => simp [step, State.stepWith, hr] at h
  | halted => simp [step, State.stepWith, hr] at h
  | faulted c => simp [step, State.stepWith, hr] at h

/-- Reading bytes off memory one at a time. -/
theorem State.holds_cons {s : State} {a v : Byte} {vs : List Byte} :
    s.holds a (v :: vs) = true ↔ s.memRead a = v ∧ s.holds (a + 1#8) vs = true := by
  simp [State.holds]

theorem add_one_one (a : Byte) : a + 1#8 + 1#8 = a + 2#8 := by
  rw [BitVec.add_assoc]
  rfl

/-- Where the bytes of an instruction stand at `pc`, they are what the fetch holds. -/
theorem State.fetchBytes_of_holds {s : State} {i : Instr} (h : s.holds s.pc (encode i) = true) :
    s.fetchBytes = encode i := by
  rw [encode, State.holds_cons] at h
  obtain ⟨hi, ho⟩ := h
  have hc : operandCount s.ir = i.operands.length := by rw [← operandCount_opcode, ← hi]; rfl
  rcases s.fetchBytes_cases with ⟨h1, hb⟩ | ⟨h1, hb⟩ | ⟨h1, hb⟩ <;> rw [hb, encode] <;> rw [hc] at h1 <;>
    cases i <;> simp [Instr.operands, State.holds, add_one_one] at h1 ho ⊢ <;>
    first
    | exact hi
    | exact ⟨hi, ho⟩

end Sys2Proof.Machine
end

