-- ==== Sys2Proof/Laws/Run.lean ====
section
/-! SUPPORT. Runs of several steps: one step, then the rest; and the induction along a run, packaged once. -/

namespace Sys2Proof.Machine

theorem run_zero (s : State) : Host.Core.run core 0 s = .next s := rfl

/-- A run that begins with a next state. -/
theorem run_succ_of_next {n : Nat} {s t : State} (h : step s = .next t) :
    Host.Core.run core (n + 1) s = Host.Core.run core n t := by
  have hc : core.step s = .next t := h
  simp only [Host.Core.run, hc]

/-- A run of one step more that answers a next state has taken its first step. -/
theorem run_succ_next {n : Nat} {s u : State} (h : Host.Core.run core (n + 1) s = .next u) :
    ∃ t, step s = .next t ∧ Host.Core.run core n t = .next u := by
  cases ht : step s with
  | next t => exact ⟨t, rfl, by rwa [run_succ_of_next ht] at h⟩
  | fault r =>
    have hc : core.step s = .fault r := ht
    simp [Host.Core.run, hc] at h
  | refused r =>
    have hc : core.step s = .refused r := ht
    simp [Host.Core.run, hc] at h

/-- A reflexive and transitive relation that every step stays in holds along every run. -/
theorem run_induction {R : State → State → Prop} (refl : ∀ s, R s s) (trans : ∀ s t u, R s t → R t u → R s u)
    (one : ∀ s t, step s = .next t → R s t) (n : Nat) (s t : State) (h : Host.Core.run core n s = .next t) : R s t := by
  induction n generalizing s with
  | zero =>
    have hst : s = t := Host.Outcome.next.inj h
    exact hst ▸ refl s
  | succ n ih =>
    obtain ⟨u, hu, hr⟩ := run_succ_next h
    exact trans s u t (one s u hu) (ih u hr)

end Sys2Proof.Machine
end

