-- ==== Sys2Proof/Tests/Slice0.lean ====
section
/-! SUPPORT. Tests: well-formedness refuses each kind of ill-formed term; every constructor decodes from a word written out
from 30_encoding.md R76; single steps with the results of 95_test_vectors.md; and, for each statement with hypotheses, a
concrete state and operands that meet them. -/

namespace Sys2Proof.Tests

open Sys2Proof.Machine

/-! ## Well-formedness: each register operand byte above 7 is refused (R75) -/

theorem test_wf_refuses_ldi_a : (Instr.ldi 8#8 1#8).wf = false := by decide
theorem test_wf_refuses_prn_a : (Instr.prn 9#8).wf = false := by decide
theorem test_wf_refuses_add_a : (Instr.add 8#8 0#8).wf = false := by decide
theorem test_wf_refuses_add_b : (Instr.add 0#8 8#8).wf = false := by decide
theorem test_wf_refuses_mul_a : (Instr.mul 9#8 0#8).wf = false := by decide
theorem test_wf_refuses_mul_b : (Instr.mul 0#8 255#8).wf = false := by decide
theorem test_wf_refuses_cmp_a : (Instr.cmp 128#8 0#8).wf = false := by decide
theorem test_wf_refuses_cmp_b : (Instr.cmp 0#8 10#8).wf = false := by decide
theorem test_wf_refuses_push_a : (Instr.push 8#8).wf = false := by decide
theorem test_wf_refuses_pop_a : (Instr.pop 8#8).wf = false := by decide
theorem test_wf_refuses_call_a : (Instr.call 8#8).wf = false := by decide
theorem test_wf_refuses_jmp_a : (Instr.jmp 64#8).wf = false := by decide
theorem test_wf_refuses_jeq_a : (Instr.jeq 8#8).wf = false := by decide
theorem test_wf_refuses_jne_a : (Instr.jne 15#8).wf = false := by decide
theorem test_wf_takes_the_limits : (Instr.ldi 7#8 255#8).wf = true ∧ (Instr.add 7#8 7#8).wf = true := by decide

/-! ## Decoding: one word per constructor, bit by bit from R76 -/

/-- What a list of bytes decodes to, with the bytes left over. -/
def decoded (bs : List Byte) : Option (Instr × List Byte) :=
  match decode bs with
  | .ok p => some p
  | .error _ => none

theorem test_decode_hlt : decoded [0b00000001#8] = some (.hlt, []) := by decide
theorem test_decode_ldi : decoded [0b10000010#8, 0b00000000#8, 0b00001000#8] = some (.ldi 0#8 8#8, []) := by decide
theorem test_decode_prn : decoded [0b01000111#8, 0b00000000#8, 0b00000001#8] = some (.prn 0#8, [1#8]) := by decide
theorem test_decode_add : decoded [0b10100000#8, 0b00000000#8, 0b00000001#8] = some (.add 0#8 1#8, []) := by decide
theorem test_decode_mul : decoded [0b10100010#8, 0b00000011#8, 0b00000010#8] = some (.mul 3#8 2#8, []) := by decide
theorem test_decode_cmp : decoded [0b10100111#8, 0b00000100#8, 0b00000111#8] = some (.cmp 4#8 7#8, []) := by decide
theorem test_decode_push : decoded [0b01000101#8, 0b00000111#8] = some (.push 7#8, []) := by decide
theorem test_decode_pop : decoded [0b01000110#8, 0b00000010#8] = some (.pop 2#8, []) := by decide
theorem test_decode_call : decoded [0b01010000#8, 0b00000001#8] = some (.call 1#8, []) := by decide
theorem test_decode_ret : decoded [0b00010001#8, 0b10000010#8] = some (.ret, [0x82#8]) := by decide
theorem test_decode_jmp : decoded [0b01010100#8, 0b00000110#8] = some (.jmp 6#8, []) := by decide
theorem test_decode_jeq : decoded [0b01010101#8, 0b00000011#8] = some (.jeq 3#8, []) := by decide
theorem test_decode_jne : decoded [0b01010110#8, 0b00000101#8] = some (.jne 5#8, []) := by decide

/-- The unrecognized bytes of the vectors V-ENC. -/
theorem test_decode_unrecognized :
    ([0x00#8, 0x02#8, 0x81#8, 0xA1#8, 0x57#8, 0xFF#8].map dispatch) = [none, none, none, none, none, none] := by decide

theorem test_decode_truncated : decoded [0xA0#8, 0x00#8] = none ∧ decoded [] = none := by decide

theorem test_table_word : decodeTableWord 24 0x010382 = some (.ldi 3#8 1#8) ∧ decodeTableWord 8 0xA0 = some (.add 0#8 0#8) := by
  decide

/-! ## Single steps (95_test_vectors.md) -/

/-- A running engine with `pc` at `p`, the bytes `bs` there, and memory zero elsewhere. -/
def engine (p : Byte) (bs : List Byte) : State := (State.reset.setPc p |>.storeBytes p bs).setRun .running

/-- A view of the state after one step. -/
def after {α : Type} (s : State) (view : State → α) : Option α :=
  match step s with
  | .next t => some (view t)
  | .fault _ => none
  | .refused _ => none

/-- V-HLT 1. -/
theorem test_hlt : after (engine 0x0B#8 [0x01#8]) (fun t => (t.run, t.pc)) = some (.halted, 0x0B#8) := by decide
/-- V-HLT 2. -/
theorem test_stall : after (engine 0x03#8 [0x00#8]) (fun t => (t.run, t.pc, t.reports)) =
    some (.running, 0x03#8, [.unrecognizedOpcode 0x00#8]) := by decide
/-- V-LDI 6: the instruction straddles the top of memory. -/
theorem test_ldi_straddles : after (engine 0xFE#8 [0x82#8, 0x01#8, 0x82#8]) (fun t => (t.reg .r1, t.pc)) =
    some (0x82#8, 0x01#8) := by decide
/-- V-LDI 5. -/
theorem test_ldi_illegal : after (engine 0x00#8 [0x82#8, 0x08#8, 0x01#8]) (fun t => (t.run, t.pc, t.regs)) =
    some (.faulted .invalidRegisterIndex, 0x00#8, State.reset.regs) := by decide
/-- V-PRN 4. -/
theorem test_prn_sp : after (engine 0x00#8 [0x47#8, 0x07#8]) (fun t => (t.out, t.pc)) = some ([244#8], 0x02#8) := by decide
/-- V-PRN 5. -/
theorem test_prn_illegal : after (engine 0x00#8 [0x47#8, 0x09#8]) (fun t => (t.run, t.out)) =
    some (.faulted .invalidRegisterIndex, []) := by decide
/-- V-ADD 10: `sp` 0xF4 plus 0xFF. -/
theorem test_add_moves_sp : after ((engine 0x00#8 [0xA0#8, 0x07#8, 0x00#8]).setReg .r0 0xFF#8)
    (fun t => (t.sp, t.reg .r0, t.fl, t.pc)) = some (0xF3#8, 0xFF#8, 0x00#8, 0x03#8) := by decide
/-- V-ADD 9. -/
theorem test_add_doubles : after ((engine 0x00#8 [0xA0#8, 0x02#8, 0x02#8]).setReg .r2 0x90#8) (fun t => t.reg .r2) =
    some 0x20#8 := by decide
/-- V-MUL 10: 200 times 3. -/
theorem test_mul_wraps : after (((engine 0x00#8 [0xA2#8, 0x00#8, 0x01#8]).setReg .r0 200#8).setReg .r1 3#8)
    (fun t => (t.reg .r0, t.reg .r1, t.pc)) = some (88#8, 3#8, 0x03#8) := by decide
/-- V-MUL 9. -/
theorem test_mul_squares : after ((engine 0x00#8 [0xA2#8, 0x03#8, 0x03#8]).setReg .r3 0x11#8) (fun t => t.reg .r3) =
    some 0x21#8 := by decide
/-- V-CMP 4: unsigned, old flags overwritten. -/
theorem test_cmp_unsigned : after ((((engine 0x00#8 [0xA7#8, 0x00#8, 0x01#8]).setReg .r0 0x80#8).setReg .r1 0x7F#8).setFl 0x04#8)
    (fun t => (t.fl, t.pc)) = some (0x02#8, 0x03#8) := by decide
/-- V-CMP 6. -/
theorem test_cmp_less : after (((engine 0x00#8 [0xA7#8, 0x00#8, 0x01#8]).setReg .r1 0xFF#8).setFl 0x02#8) (fun t => t.fl) =
    some 0x04#8 := by decide
/-- V-PUSH 2: the stack pointer wraps. -/
theorem test_push_wraps : after (((engine 0x10#8 [0x45#8, 0x00#8]).setReg .r7 0x00#8).setReg .r0 0xAB#8)
    (fun t => (t.sp, t.memRead 0xFF#8, t.pc)) = some (0xFF#8, 0xAB#8, 0x12#8) := by decide
/-- V-PUSH 3. -/
theorem test_push_sp : after (engine 0x00#8 [0x45#8, 0x07#8]) (fun t => (t.sp, t.memRead 0xF3#8)) =
    some (0xF3#8, 0xF3#8) := by decide
/-- V-POP 1. -/
theorem test_pop : after (((engine 0x0A#8 [0x46#8, 0x02#8]).setReg .r7 0xF3#8).memWrite 0xF3#8 0x15#8)
    (fun t => (t.reg .r2, t.sp, t.memRead 0xF3#8, t.pc)) = some (0x15#8, 0xF4#8, 0x15#8, 0x0C#8) := by decide
/-- V-POP 3. -/
theorem test_pop_sp : after ((engine 0x00#8 [0x46#8, 0x07#8]).memWrite 0xF4#8 0x20#8) (fun t => t.sp) = some 0x21#8 := by
  decide
/-- V-CALL 3: the return address wraps to 0x00. -/
theorem test_call_wraps : after (((engine 0xFE#8 [0x50#8, 0x00#8]).setReg .r0 0x40#8).memWrite 0xF3#8 0x99#8)
    (fun t => (t.memRead 0xF3#8, t.sp, t.pc)) = some (0x00#8, 0xF3#8, 0x40#8) := by decide
/-- V-CALL 4. -/
theorem test_call_sp : after (engine 0x00#8 [0x50#8, 0x07#8]) (fun t => (t.sp, t.memRead 0xF3#8, t.pc)) =
    some (0xF3#8, 0x02#8, 0xF3#8) := by decide
/-- V-RET 2. -/
theorem test_ret : after (((engine 0x14#8 [0x11#8]).setReg .r7 0xF2#8).memWrite 0xF2#8 0x0A#8) (fun t => (t.pc, t.sp)) =
    some (0x0A#8, 0xF3#8) := by decide
/-- V-RET 7. -/
theorem test_ret_wraps : after (((engine 0x20#8 [0x11#8]).setReg .r7 0xFF#8).memWrite 0xFF#8 0x09#8)
    (fun t => (t.pc, t.sp)) = some (0x09#8, 0x00#8) := by decide
/-- V-JMP 1. -/
theorem test_jmp : after ((engine 0x03#8 [0x54#8, 0x00#8]).setReg .r0 0x06#8) (fun t => t.pc) = some 0x06#8 := by decide
/-- V-JEQ 3. -/
theorem test_jeq_taken : after (((engine 0x12#8 [0x55#8, 0x03#8]).setReg .r3 0x17#8).setFl 0x01#8) (fun t => t.pc) =
    some 0x17#8 := by decide
/-- V-JEQ 11: not taken, the operand and the next `pc` wrap. -/
theorem test_jeq_not_taken : after (engine 0xFF#8 [0x55#8, 0x03#8]) (fun t => t.pc) = some 0x01#8 := by decide
/-- V-JNE 8. -/
theorem test_jne_taken : after (((engine 0x14#8 [0x56#8, 0x03#8]).setReg .r3 0x0C#8).setFl 0x04#8) (fun t => t.pc) =
    some 0x0C#8 := by decide
/-- V-JNE 13: the register byte is checked although the jump is not taken. -/
theorem test_jne_illegal : after ((engine 0x00#8 [0x56#8, 0x0F#8]).setFl 0x01#8) (fun t => (t.run, t.pc)) =
    some (.faulted .invalidRegisterIndex, 0x00#8) := by decide

/-- An instruction placed in the machine after reset is the first to run. -/
theorem test_withFetchWord : after (State.reset.withFetchWord 24 0x0903A2) (fun t => (t.run, t.pc)) =
    some (.faulted .invalidRegisterIndex, 0x00#8) ∧ after (State.reset.withFetchWord 8 0x82) (fun t => t.pc) = some 0x03#8 := by
  decide

/-- Writing the fill byte unlists the address; the list stays sorted. -/
theorem test_memory_form : ((State.reset.memWrite 9#8 1#8).memWrite 3#8 2#8).mem = [(3, 2#8), (9, 1#8)] ∧
    (((State.reset.memWrite 9#8 1#8).memWrite 3#8 2#8).memWrite 9#8 0#8).mem = [(3, 2#8)] := by decide

/-! ## Witnesses: each statement's hypotheses are met together by a concrete state and operands -/

theorem witness_EncodeOfDecode : decode [0x47#8, 0xFF#8, 0x01#8] = .ok (.prn 0xFF#8, [0x01#8]) := rfl

theorem witness_OtherOpcodesUnrecognized : 0xC0#8 ∉ recognizedOpcodes ∧ 0x01#8 ∈ recognizedOpcodes := by decide

theorem witness_FetchReadsOperandsInAddressOrder :
    decode (engine 0xFE#8 [0xA0#8, 0x01#8, 0x02#8]).fetchBytes = .ok (.add 0x01#8 0x02#8, []) := rfl

theorem witness_StepRunsInstructionAtPc :
    (engine 0xFE#8 [0xA0#8, 0x01#8, 0x09#8]).run = .running ∧
    (engine 0xFE#8 [0xA0#8, 0x01#8, 0x09#8]).holds 0xFE#8 (encode (.add 0x01#8 0x09#8)) = true ∧
    (decoded [(engine 0xFE#8 [0xA0#8, 0x01#8, 0x09#8]).memRead 0xFE#8, (engine 0xFE#8 [0xA0#8, 0x01#8, 0x09#8]).memRead 0xFF#8,
      (engine 0xFE#8 [0xA0#8, 0x01#8, 0x09#8]).memRead 0x00#8]) = some (.add 0x01#8 0x09#8, []) := by decide

theorem witness_StepsExistOnlyInRunning :
    State.reset.run = .idle ∧ (engine 0#8 []).run = .running ∧ (State.reset.setRun .halted).run = .halted ∧
    (State.reset.raise .invalidRegisterIndex).run = .faulted .invalidRegisterIndex ∧
    (State.reset.raise .unsupportedAluOp).run = .faulted .unsupportedAluOp := by decide

/-- For UnrecognizedOpcodeStalls, StallLastsForever, NextPcTable, BranchResolver. -/
theorem witness_Stalled : (engine 0xFF#8 [0xFF#8]).Stalled := ⟨rfl, by decide⟩

/-- For IllegalRegisterByteFaults, BranchResolver. -/
theorem witness_IllegalRegisterByteFaults : (Instr.add 7#8 8#8).wf = false ∧ (Instr.jeq 255#8).wf = false := by decide

/-- Steps that answer a next state, one for each outcome of OneOutcomePerStep; for UnsupportedAluOpUnreachable, OnlyHltHalts,
MemoryWrittenByPushAndCallOnly, PulsesMatchHistories, NextPcTable too. -/
theorem witness_OneOutcomePerStep_stall :
    step (engine 0xFF#8 [0xFF#8]) = .next ((engine 0xFF#8 [0xFF#8]).stall 0xFF#8) := rfl

theorem witness_OneOutcomePerStep_fault :
    step (engine 0#8 [0x54#8, 0x08#8]) = .next ((engine 0#8 [0x54#8, 0x08#8]).raise .invalidRegisterIndex) := rfl

theorem witness_OneOutcomePerStep_handler :
    step (engine 0xFF#8 [0x01#8]) = .next ((engine 0xFF#8 [0x01#8]).setRun .halted) := rfl

theorem witness_MemoryWrittenByPushAndCallOnly :
    step (engine 0#8 [0x47#8, 0x07#8]) = .next (((engine 0#8 [0x47#8, 0x07#8]).emit 0xF4#8).advancePc 2#8) ∧
    (engine 0#8 [0x47#8, 0x07#8]).memRead 0#8 ≠ 0x45#8 ∧ (engine 0#8 [0x47#8, 0x07#8]).memRead 0#8 ≠ 0x50#8 :=
  ⟨rfl, by decide, by decide⟩

/-- The three relations of CmpResult and CmpSetsExactlyOneFlag, each at a boundary. -/
theorem witness_CmpResult :
    (State.reset.reg .r0).toNat = (State.reset.reg .r1).toNat ∧
    ((State.reset.setReg .r0 0xFF#8).reg .r0).toNat > ((State.reset.setReg .r0 0xFF#8).reg .r1).toNat ∧
    ((State.reset.setReg .r1 0x01#8).reg .r0).toNat < ((State.reset.setReg .r1 0x01#8).reg .r1).toNat := by decide

/-- Both clauses of PopResult; for CallThenRetReturns too. -/
theorem witness_PopResult : Reg.r6 ≠ Reg.r7 ∧ Reg.r7 = Reg.r7 := by decide

/-- Both clauses of JeqResult and JneResult. -/
theorem witness_JeqResult : (0x01#8 : Byte).getLsbD 0 = true ∧ (0x06#8 : Byte).getLsbD 0 = false := by decide

theorem witness_LdiThenPrnPrintsImmediate :
    (engine 0xFD#8 [0x82#8, 0x07#8, 0xFF#8, 0x47#8, 0x07#8]).run = .running ∧
    (engine 0xFD#8 [0x82#8, 0x07#8, 0xFF#8, 0x47#8, 0x07#8]).holds 0xFD#8 [0x82#8, Reg.r7.byte, 0xFF#8, 0x47#8, Reg.r7.byte] =
      true := by decide

/-- The four register clauses of PushThenPopRoundTrip. -/
theorem witness_PushThenPopRoundTrip (r q : Reg) :
    (engine 0#8 [0x45#8, r.byte, 0x46#8, q.byte]).run = .running ∧
    (engine 0#8 [0x45#8, r.byte, 0x46#8, q.byte]).holds 0#8 [0x45#8, r.byte, 0x46#8, q.byte] = true ∧
    (engine 0#8 [0x45#8, r.byte, 0x46#8, q.byte]).sp - 1#8 ≠ 0#8 + 2#8 ∧
    (engine 0#8 [0x45#8, r.byte, 0x46#8, q.byte]).sp - 1#8 ≠ 0#8 + 3#8 := by
  cases r <;> cases q <;> decide

/-- A CALL, the state it leads to, and a RET there: the state `u` of CallThenRetReturns is the state after the CALL. -/
theorem witness_CallThenRetReturns :
    (((engine 0#8 [0x50#8, 0x00#8]).setReg .r0 0x40#8).memWrite 0x40#8 0x11#8).run = .running ∧
    (((engine 0#8 [0x50#8, 0x00#8]).setReg .r0 0x40#8).memWrite 0x40#8 0x11#8).holds 0#8 [0x50#8, Reg.r0.byte] = true ∧
    after (((engine 0#8 [0x50#8, 0x00#8]).setReg .r0 0x40#8).memWrite 0x40#8 0x11#8)
      (fun t => (t.run, t.memRead t.pc, t.sp, t.memRead t.sp)) = some (.running, 0x11#8, 0xF3#8, 0x02#8) := by decide

/-- PUSH over the next opcode: 0x01 is pushed where a PRN stood. -/
theorem witness_StoredByteIsFetchedNext_push :
    (((engine 0#8 [0x45#8, 0x00#8, 0x47#8]).setReg .r7 0x03#8).setReg .r0 0x01#8).run = .running ∧
    (((engine 0#8 [0x45#8, 0x00#8, 0x47#8]).setReg .r7 0x03#8).setReg .r0 0x01#8).holds 3#8 (Instr.operands .hlt) = true ∧
    (((engine 0#8 [0x45#8, 0x00#8, 0x47#8]).setReg .r7 0x03#8).setReg .r0 0x01#8).holds 0#8 [0x45#8, Reg.r0.byte] = true ∧
    (((engine 0#8 [0x45#8, 0x00#8, 0x47#8]).setReg .r7 0x03#8).setReg .r0 0x01#8).sp - 1#8 = 0#8 + 2#8 ∧
    (encode .hlt).head? = some ((((engine 0#8 [0x45#8, 0x00#8, 0x47#8]).setReg .r7 0x03#8).setReg .r0 0x01#8).reg .r0) := by
  decide

/-- CALL R7 at 0x43 stores 0x45, the opcode of PUSH, and jumps to it; its operand is the byte at the old stack pointer. -/
theorem witness_StoredByteIsFetchedNext_call :
    (engine 0x43#8 [0x50#8, 0x07#8]).run = .running ∧
    (engine 0x43#8 [0x50#8, 0x07#8]).holds 0x43#8 [0x50#8, Reg.r7.byte] = true ∧
    (encode (.push 0#8)).head? = some ((0x43#8 : Byte) + 2#8) ∧
    (engine 0x43#8 [0x50#8, 0x07#8]).holds 0xF4#8 (Instr.push 0#8).operands = true := by decide

theorem witness_JumpToItselfLoops :
    ((engine 0x10#8 [0x54#8, 0x04#8]).setReg .r4 0x10#8).holds 0x10#8 [0x54#8, Reg.r4.byte] = true ∧
    ((engine 0x10#8 [0x54#8, 0x04#8]).setReg .r4 0x10#8).reg .r4 = 0x10#8 ∧
    ((engine 0x10#8 [0x54#8, 0x04#8]).setReg .r4 0x10#8).run = .running := by decide

/-- NextPcTable's faulting step. -/
theorem witness_NextPcTable :
    ((engine 0#8 [0x54#8, 0x08#8]).raise .invalidRegisterIndex).run = .faulted .invalidRegisterIndex := rfl

/-- BranchResolver: taken, not taken on legal operands, equal flags bit 0, and both relations of the compare. -/
theorem witness_BranchResolver :
    taken (.jeq Reg.r0.byte) 0x01#8 = true ∧ taken (.jne Reg.r0.byte) 0x00#8 = true ∧ taken (.jmp Reg.r0.byte) 0x00#8 = true ∧
    (Instr.jeq 7#8).wf = true ∧ taken (.jeq 7#8) 0x06#8 = false ∧ (0x02#8 : Byte).getLsbD 0 = (0x04#8 : Byte).getLsbD 0 ∧
    State.reset.reg .r0 = State.reset.reg .r1 ∧ State.reset.reg .r0 ≠ State.reset.reg .r7 := by decide

/-- FlagsWrittenByCmpReadByJumps: an instruction that is no CMP, a jump with bit 0 the same, legal flags and a step. -/
theorem witness_FlagsWrittenByCmpReadByJumps :
    (∀ a b, Instr.jeq 0#8 ≠ .cmp a b) ∧ (∀ a, Instr.hlt ≠ .jeq a ∧ Instr.hlt ≠ .jne a) ∧
    (0x02#8 : Byte).getLsbD 0 = (engine 0#8 [0x01#8]).fl.getLsbD 0 ∧ FlLegal (engine 0#8 [0x01#8]).fl ∧
    exec (.jmp 0#8) (engine 0#8 []) = .next (engine 0#8 []) ∧
    step (engine 0#8 [0x01#8]) = .next ((engine 0#8 [0x01#8]).setRun .halted) :=
  ⟨fun _ _ => nofun, fun _ => ⟨nofun, nofun⟩, by decide, .inl rfl, rfl, rfl⟩

/-- MemoryReadByPopAndRetOnly: an instruction of neither kind, and a memory that agrees at the stack pointer. -/
theorem witness_MemoryReadByPopAndRetOnly :
    ((∀ a, Instr.push 0#8 ≠ .pop a) ∧ Instr.push 0#8 ≠ .ret) ∧
    Memory.read [(3, 1#8)] State.reset.sp = State.reset.memRead State.reset.sp := ⟨⟨nofun, nofun⟩, by decide⟩

/-- RegistersReadByTable: JEQ not taken reads no register, so any register contents will do; PUSH R0 reads R7 and R0. -/
theorem witness_RegistersReadByTable :
    (∀ q, mayRead (.jeq 0#8) 0x00#8 q → (State.reset.regs.set .r0 1#8).get q = State.reset.reg q) ∧
    ∀ q, mayRead (.push Reg.r0.byte) 0x00#8 q → (State.reset.regs.set .r1 1#8).get q = State.reset.reg q := by
  refine ⟨fun q h => absurd h.2 (by decide), fun q h => ?_⟩
  rcases h with h | h
  · subst h; rfl
  · have hq := Reg.byte_injective h
    subst hq; rfl

/-- RegistersWrittenByTable: a register outside the row of POP R0. -/
theorem witness_RegistersWrittenByTable : ¬ mayWrite (.pop Reg.r0.byte) .r1 := by
  rintro (h | h)
  · exact absurd (Reg.byte_injective h) (by decide)
  · exact absurd h (by decide)

theorem witness_HistoriesOnlyGrow :
    Host.Core.run core 1 (engine 0#8 [0x47#8, 0x07#8]) =
      .next (((engine 0#8 [0x47#8, 0x07#8]).emit 0xF4#8).advancePc 2#8) := run_succ_of_next rfl

theorem witness_StepKeepsInvariant :
    (engine 0#8 [0x01#8]).Inv ∧ step (engine 0#8 [0x01#8]) = .next ((engine 0#8 [0x01#8]).setRun .halted) :=
  ⟨⟨by decide, .inl rfl, by decide⟩, rfl⟩

/-- LaunchState and LaunchMeetsInvariant: the longest image and one byte more. -/
theorem witness_LaunchState :
    (List.replicate 256 (0#8 : Byte)).length ≤ 256 ∧ 256 < (List.replicate 257 (0#8 : Byte)).length ∧
    launch [0x01#8] = some (engine 0#8 [0x01#8]) := 
  ⟨le_of_eq List.length_replicate, by rw [List.length_replicate]; decide, rfl⟩

theorem witness_HostActsOnlyInIdle : State.reset.run = .idle ∧ (engine 0#8 []).run ≠ .idle := by decide

theorem witness_LevelPorts :
    (State.reset.raise .invalidRegisterIndex).run = .faulted .invalidRegisterIndex ∧
    (State.reset.raise .unsupportedAluOp).run = .faulted .unsupportedAluOp ∧ ∀ c, State.reset.run ≠ .faulted c :=
  ⟨rfl, rfl, nofun⟩

end Sys2Proof.Tests
end

namespace Sys2Proof.Machine

/-! ## What `exec` can answer

The inversion lemma of `exec`, said once, and what follows from it for each field of the state. -/

/-- The states `exec` answers from `s`: the fault on an illegal register operand byte, else the effect of the handler. -/
inductive ExecTo (s : State) : Instr → State → Prop where
  | illegal {i : Instr} (hi : i.wf = false) : ExecTo s i (s.raise .invalidRegisterIndex)
  | hlt : ExecTo s .hlt (s.setRun .halted)
  | ldi (r : Reg) (b : Byte) : ExecTo s (.ldi r.byte b) ((s.setReg r b).advancePc 3#8)
  | prn (r : Reg) : ExecTo s (.prn r.byte) ((s.emit (s.reg r)).advancePc 2#8)
  | add (r q : Reg) : ExecTo s (.add r.byte q.byte) ((s.setReg r (s.reg r + s.reg q)).advancePc 3#8)
  | mul (r q : Reg) : ExecTo s (.mul r.byte q.byte) ((s.setReg r (s.reg r * s.reg q)).advancePc 3#8)
  | cmp (r q : Reg) :
      ExecTo s (.cmp r.byte q.byte) ((s.setFl (compareFlags (s.reg r) (s.reg q))).advancePc 3#8)
  | push (r : Reg) : ExecTo s (.push r.byte) ((s.pushByte fun t => t.reg r).advancePc 2#8)
  | pop (r : Reg) : ExecTo s (.pop r.byte) ((s.setReg r (s.memRead s.sp)).incSp.advancePc 2#8)
  | call (r : Reg) :
      ExecTo s (.call r.byte) ((s.pushByte fun _ => s.pc + 2#8).setPc (if r = .r7 then s.sp - 1#8 else s.reg r))
  | ret : ExecTo s .ret (s.setPc (s.memRead s.sp)).incSp
  | jmp (r : Reg) : ExecTo s (.jmp r.byte) (s.setPc (s.reg r))
  | jeq (r : Reg) : ExecTo s (.jeq r.byte) (s.setPc (if s.fl.getLsbD 0 then s.reg r else s.pc + 2#8))
  | jne (r : Reg) : ExecTo s (.jne r.byte) (s.setPc (if !s.fl.getLsbD 0 then s.reg r else s.pc + 2#8))

theorem ExecTo.exec_eq {i : Instr} {s t : State} (h : ExecTo s i t) : exec i s = .next t := by
  cases h with
  | illegal hi => exact exec_of_not_wf hi s
  | hlt => exact exec_hlt s
  | ldi r b => exact exec_ldi r b s
  | prn r => exact exec_prn r s
  | add r q => exact exec_add r q s
  | mul r q => exact exec_mul r q s
  | cmp r q => exact exec_cmp r q s
  | push r => exact exec_push r s
  | pop r => exact exec_pop r s
  | call r => exact exec_call r s
  | ret => exact exec_ret s
  | jmp r => exact exec_jmp r s
  | jeq r => exact exec_jeq r s
  | jne r => exact exec_jne r s

theorem exists_execTo (i : Instr) (s : State) : ∃ t, ExecTo s i t := by
  obtain ⟨hl, -⟩ | hi := instr_legal_or_illegal i
  · cases hl with
    | hlt => exact ⟨_, .hlt⟩
    | ldi r b => exact ⟨_, .ldi r b⟩
    | prn r => exact ⟨_, .prn r⟩
    | add r q => exact ⟨_, .add r q⟩
    | mul r q => exact ⟨_, .mul r q⟩
    | cmp r q => exact ⟨_, .cmp r q⟩
    | push r => exact ⟨_, .push r⟩
    | pop r => exact ⟨_, .pop r⟩
    | call r => exact ⟨_, .call r⟩
    | ret => exact ⟨_, .ret⟩
    | jmp r => exact ⟨_, .jmp r⟩
    | jeq r => exact ⟨_, .jeq r⟩
    | jne r => exact ⟨_, .jne r⟩
  · exact ⟨_, .illegal hi⟩

/-- Everything `exec` can answer: the case split for claims about the state after an instruction. -/
theorem exec_eq_next_iff {i : Instr} {s t : State} : exec i s = .next t ↔ ExecTo s i t := by
  refine ⟨fun h => ?_, ExecTo.exec_eq⟩
  obtain ⟨u, hu⟩ := exists_execTo i s
  exact Host.Outcome.next.inj (hu.exec_eq.symm.trans h) ▸ hu

section Fields

variable {i : Instr} {s t : State} (h : exec i s = .next t)
include h

/-- Memory changes by one write at the decremented stack pointer, of PUSH or CALL, or not at all (20_memory.md R51). -/
theorem exec_mem_cases :
    t.mem = s.mem ∨ ∃ r v, (i = .push (Reg.byte r) ∨ i = .call (Reg.byte r)) ∧ t.mem = s.mem.write (s.sp - 1#8) v := by
  cases exec_eq_next_iff.1 h with
  | push r => exact .inr ⟨r, _, .inl rfl, rfl⟩
  | call r => exact .inr ⟨r, _, .inr rfl, rfl⟩
  | _ => exact .inl rfl

/-- The flags change by a comparison, of CMP, or not at all (10_state.md R28). -/
theorem exec_fl_cases :
    t.fl = s.fl ∨ ∃ r q, i = .cmp (Reg.byte r) (Reg.byte q) ∧ t.fl = compareFlags (s.reg r) (s.reg q) := by
  cases exec_eq_next_iff.1 h with
  | cmp r q => exact .inr ⟨r, q, rfl, rfl⟩
  | _ => exact .inl rfl

/-- The run state changes by HLT and by the fault on an illegal register operand byte only (10_state.md R31). -/
theorem exec_run_cases :
    t.run = s.run ∨ (i = .hlt ∧ t.run = .halted) ∨ (i.wf = false ∧ t = s.raise .invalidRegisterIndex) := by
  cases exec_eq_next_iff.1 h with
  | illegal hi => exact .inr (.inr ⟨hi, rfl⟩)
  | hlt => exact .inr (.inl ⟨rfl, rfl⟩)
  | _ => exact .inl rfl

/-- The output stream grows by one byte, of PRN, or stays (10_state.md R34). -/
theorem exec_out_cases : t.out = s.out ∨ ∃ r, i = .prn (Reg.byte r) ∧ t.out = s.out ++ [s.reg r] := by
  cases exec_eq_next_iff.1 h with
  | prn r => exact .inr ⟨r, rfl, rfl⟩
  | _ => exact .inl rfl

/-- No handler reports: reports are the stall's alone. -/
theorem exec_reports : t.reports = s.reports := by
  cases exec_eq_next_iff.1 h <;> rfl

/-- The table of written registers (10_state.md R23). -/
theorem exec_reg_of_not_mayWrite {q : Reg} (hq : ¬ mayWrite i q) : t.reg q = s.reg q := by
  cases exec_eq_next_iff.1 h with
  | ldi r | add r | mul r => exact State.setReg_reg_ne s r q _ fun e => hq (congrArg Reg.byte e.symm)
  | push | call | ret => exact State.setReg_reg_ne s .r7 q _ hq
  | pop r =>
    obtain ⟨hr, h7⟩ := not_or.1 hq
    calc (s.setReg r (s.memRead s.sp)).incSp.reg q
      _ = (s.setReg r (s.memRead s.sp)).reg q := State.setReg_reg_ne _ .r7 q _ h7
      _ = s.reg q := State.setReg_reg_ne s r q _ fun e => hr (congrArg Reg.byte e.symm)
  | _ => rfl

end Fields

/-! ## What `step` can answer -/

theorem step_idle {s : State} (h : s.run = .idle) : step s = .fault .notStarted := by
  simp only [step, State.stepWith, h]

theorem step_halted {s : State} (h : s.run = .halted) : step s = .fault .halted := by
  simp only [step, State.stepWith, h]

theorem step_faulted {s : State} {c : FaultCause} (h : s.run = .faulted c) : step s = .fault (.faulted c) := by
  simp only [step, State.stepWith, h]

theorem step_stalled {s : State} (h : s.Stalled) : step s = .next (s.stall s.ir) := by
  obtain ⟨hr, hn⟩ := h
  obtain ⟨i, _, -, hd, -⟩ | ⟨-, he⟩ := step_running hr
  · exact absurd ((dispatch_eq_none_iff s.ir).2 hn) (by simp [hd])
  · exact he

theorem exists_step_next_iff (s : State) : (∃ t, step s = .next t) ↔ s.run = .running := by
  refine ⟨fun ⟨_, h⟩ => (step_next_cases h).1, fun hr => ?_⟩
  obtain ⟨i, _, -, -, he⟩ | ⟨-, he⟩ := step_running hr
  · exact he ▸ exec_next i s
  · exact ⟨_, he⟩

/-- A claim about the state after a step: it holds after every instruction that answers that state, and after a stall. -/
theorem step_next_elim {P : State → Prop} {s t : State} (h : step s = .next t)
    (exec_case : ∀ i, exec i s = .next t → P t) (stall_case : P (s.stall s.ir)) : P t := by
  obtain ⟨-, ⟨i, _, -, -, he⟩ | ⟨-, rfl⟩⟩ := step_next_cases h
  · exact exec_case i he
  · exact stall_case

theorem step_run_cases {s t : State} (h : step s = .next t) :
    t.run = .running ∨ t.run = .halted ∨ t = s.raise .invalidRegisterIndex := by
  obtain ⟨hr, ⟨i, _, -, -, he⟩ | ⟨-, rfl⟩⟩ := step_next_cases h
  · obtain ht | ⟨-, ht⟩ | ⟨-, ht⟩ := exec_run_cases he
    · exact .inl (ht.trans hr)
    · exact .inr (.inl ht)
    · exact .inr (.inr ht)
  · exact .inl hr

/-- A step that ends in a fault has raised `InvalidRegisterIndex` and done nothing else (60_exceptions.md R199). -/
theorem step_eq_raise_of_faulted {s t : State} {c : FaultCause} (h : step s = .next t) (hc : t.run = .faulted c) :
    t = s.raise .invalidRegisterIndex := by
  obtain ht | ht | ht := step_run_cases h
  · exact absurd (ht.symm.trans hc) nofun
  · exact absurd (ht.symm.trans hc) nofun
  · exact ht

/-! ## The invariant -/

/-- A comparison sets exactly one flag (42_alu.md R126). -/
theorem compareFlags_eq_one_two_or_four (va vb : Byte) :
    compareFlags va vb = 0x01#8 ∨ compareFlags va vb = 0x02#8 ∨ compareFlags va vb = 0x04#8 := by
  obtain ⟨-, h⟩ | ⟨-, h⟩ | ⟨-, h⟩ := compareFlags_cases va vb
  · exact .inl h
  · exact .inr (.inl h)
  · exact .inr (.inr h)

theorem step_mem_wf {s t : State} (hs : s.mem.wf) (h : step s = .next t) : t.mem.wf := by
  refine step_next_elim (P := fun u => u.mem.wf) h (fun i he => ?_) hs
  obtain hm | ⟨_, v, -, hm⟩ := exec_mem_cases he
  · exact hm ▸ hs
  · exact hm ▸ Memory.write_wf hs _ v

theorem step_flLegal {s t : State} (hs : FlLegal s.fl) (h : step s = .next t) : FlLegal t.fl := by
  refine step_next_elim (P := fun u => FlLegal u.fl) h (fun i he => ?_) hs
  obtain hf | ⟨r, q, -, hf⟩ := exec_fl_cases he
  · exact hf ▸ hs
  · exact hf ▸ .inr (compareFlags_eq_one_two_or_four _ _)

theorem step_run_ne_unsupportedAluOp {s t : State} (h : step s = .next t) : t.run ≠ .faulted .unsupportedAluOp := by
  intro hc
  rw [step_eq_raise_of_faulted h hc] at hc
  exact absurd hc nofun

/-- Settles O45: memory is written by `Memory.write` alone, the flags by a comparison alone, and no step enters the ALU
fault. -/
theorem stepKeepsInvariant : Obligations.StepKeepsInvariant := fun _ _ hs h =>
  ⟨step_mem_wf hs.mem_wf h, step_flLegal hs.fl_legal h, step_run_ne_unsupportedAluOp h⟩

/-- Settles O46: no byte listed, no flag set, `Idle`. -/
theorem resetMeetsInvariant : Obligations.ResetMeetsInvariant := ⟨State.reset_mem_wf, .inl rfl, nofun⟩

/-- Settles O47: memory at reset lists nothing, so every address reads the fill byte. -/
theorem resetValues : Obligations.ResetValues := ⟨rfl, rfl, rfl, fun _ => rfl, rfl, rfl, rfl⟩

/-- Settles O9, one run state at a time. -/
theorem stepsExistOnlyInRunning : Obligations.StepsExistOnlyInRunning := fun s =>
  ⟨exists_step_next_iff s, step_idle, step_halted, fun _ => step_faulted⟩

/-! ## The histories -/

theorem step_histories_prefix {s t : State} (h : step s = .next t) : s.out <+: t.out ∧ s.reports <+: t.reports := by
  refine step_next_elim (P := fun u => s.out <+: u.out ∧ s.reports <+: u.reports) h (fun i he => ⟨?_, ?_⟩)
    ⟨List.prefix_rfl, List.prefix_append _ _⟩
  · obtain ho | ⟨r, -, ho⟩ := exec_out_cases he
    · exact ho ▸ List.prefix_rfl
    · exact ho ▸ List.prefix_append _ _
  · exact exec_reports he ▸ List.prefix_rfl

/-- Settles O44, by the induction along a run: the order of lists by initial segments is reflexive and transitive. -/
theorem historiesOnlyGrow : Obligations.HistoriesOnlyGrow :=
  run_induction (R := fun s t => s.out <+: t.out ∧ s.reports <+: t.reports)
    (fun _ => ⟨List.prefix_rfl, List.prefix_rfl⟩)
    (fun _ _ _ hst htu => ⟨hst.1.trans htu.1, hst.2.trans htu.2⟩)
    (fun _ _ => step_histories_prefix)

/-! ## The program counter -/

theorem exec_call_pc (r : Reg) (s : State) : ∃ t, exec (.call r.byte) s = .next t ∧ t.pc = s.decSp.reg r :=
  ⟨_, exec_call r s, (State.decSp_reg s r).symm⟩

theorem exec_jne_pc (r : Reg) (s : State) :
    ∃ t, exec (.jne r.byte) s = .next t ∧ t.pc = if s.fl.getLsbD 0 then s.pc + 2#8 else s.reg r :=
  ⟨_, exec_jne r s, by cases h : s.fl.getLsbD 0 <;> rfl⟩

theorem operandCount_add_one (i : Instr) : operandCount i.handler.opcode + 1 = i.operands.length + 1 :=
  congrArg (· + 1) (operandCount_opcode i)

/-- An instruction of format OP2 advances `pc` past its three bytes. -/
theorem exec_pc_of_op2 (s : State) (i : Instr) (r : Reg) (b : Byte)
    (h : i = .ldi r.byte b ∨ ∃ q, b = Reg.byte q ∧ (i = .add r.byte b ∨ i = .mul r.byte b ∨ i = .cmp r.byte b)) :
    ∃ t, exec i s = .next t ∧ t.pc = s.pc + 3#8 ∧ operandCount i.handler.opcode + 1 = 3 := by
  obtain rfl | ⟨q, rfl, rfl | rfl | rfl⟩ := h
  · exact ⟨_, exec_ldi r b s, rfl, operandCount_add_one _⟩
  · exact ⟨_, exec_add r q s, rfl, operandCount_add_one _⟩
  · exact ⟨_, exec_mul r q s, rfl, operandCount_add_one _⟩
  · exact ⟨_, exec_cmp r q s, rfl, operandCount_add_one _⟩

/-- PRN, PUSH and POP advance `pc` past their two bytes. -/
theorem exec_pc_of_op1 (s : State) (i : Instr) (r : Reg) (h : i = .prn r.byte ∨ i = .push r.byte ∨ i = .pop r.byte) :
    ∃ t, exec i s = .next t ∧ t.pc = s.pc + 2#8 ∧ operandCount i.handler.opcode + 1 = 2 := by
  obtain rfl | rfl | rfl := h
  · exact ⟨_, exec_prn r s, rfl, operandCount_add_one _⟩
  · exact ⟨_, exec_push r s, rfl, operandCount_add_one _⟩
  · exact ⟨_, exec_pop r s, rfl, operandCount_add_one _⟩

/-- Settles O36, row by row; the row of the faulting step rests on the fault changing the run state alone. -/
theorem nextPcTable : Obligations.NextPcTable := by
  refine ⟨fun s => ⟨_, exec_hlt s, rfl⟩, exec_pc_of_op2, exec_pc_of_op1, fun s r => exec_call_pc r s,
    fun s r => ⟨_, exec_jmp r s, rfl⟩, fun s => ⟨_, exec_ret s, rfl⟩, fun s r => ⟨_, exec_jeq r s, rfl⟩,
    fun s r => exec_jne_pc r s, rfl, rfl, fun s h => ⟨_, step_stalled h, rfl⟩, fun s t c h hc => ?_⟩
  rw [step_eq_raise_of_faulted h hc, State.raise_pc]

/-! ## The flags -/

theorem exec_fl_of_ne_cmp {i : Instr} {s t : State} (hi : ∀ a b, i ≠ .cmp a b) (h : exec i s = .next t) :
    t.fl = s.fl := by
  obtain hf | ⟨r, q, rfl, -⟩ := exec_fl_cases h
  · exact hf
  · exact absurd rfl (hi r.byte q.byte)

/-- Of the flags an instruction reads bit 0 alone, and that in JEQ and JNE alone: with other flags before it, it does the
same to everything but the flags (10_state.md R28). -/
theorem exec_setFl_sameButFl (i : Instr) (s : State) (f : Byte)
    (h : (∀ a, i ≠ .jeq a ∧ i ≠ .jne a) ∨ f.getLsbD 0 = s.fl.getLsbD 0) :
    ∃ t u, exec i s = .next t ∧ exec i (s.setFl f) = .next u ∧ SameButFl t u := by
  obtain ⟨hl, -⟩ | hi := instr_legal_or_illegal i
  · cases hl with
    | hlt => exact ⟨_, _, exec_hlt s, exec_hlt _, rfl⟩
    | ldi r b => exact ⟨_, _, exec_ldi r b s, exec_ldi r b _, rfl⟩
    | prn r => exact ⟨_, _, exec_prn r s, exec_prn r _, rfl⟩
    | add r q => exact ⟨_, _, exec_add r q s, exec_add r q _, rfl⟩
    | mul r q => exact ⟨_, _, exec_mul r q s, exec_mul r q _, rfl⟩
    | cmp r q => exact ⟨_, _, exec_cmp r q s, exec_cmp r q _, rfl⟩
    | push r => exact ⟨_, _, exec_push r s, exec_push r _, rfl⟩
    | pop r => exact ⟨_, _, exec_pop r s, exec_pop r _, rfl⟩
    | call r => exact ⟨_, _, exec_call r s, exec_call r _, rfl⟩
    | ret => exact ⟨_, _, exec_ret s, exec_ret _, rfl⟩
    | jmp r => exact ⟨_, _, exec_jmp r s, exec_jmp r _, rfl⟩
    | jeq r =>
      have hbit := h.resolve_left fun hj => (hj r.byte).1 rfl
      refine ⟨_, _, exec_jeq r s, exec_jeq r _, ?_⟩
      rw [State.setFl_fl, hbit]
      rfl
    | jne r =>
      have hbit := h.resolve_left fun hj => (hj r.byte).2 rfl
      refine ⟨_, _, exec_jne r s, exec_jne r _, ?_⟩
      rw [State.setFl_fl, hbit]
      rfl
  · exact ⟨_, _, exec_of_not_wf hi s, exec_of_not_wf hi _, rfl⟩

/-- Settles O38: who writes the flags, what CMP leaves in them, who reads them, and that they stay legal. -/
theorem flagsWrittenByCmpReadByJumps : Obligations.FlagsWrittenByCmpReadByJumps := by
  refine ⟨fun i s t => exec_fl_of_ne_cmp, fun s ra rb => ?_, exec_setFl_sameButFl, rfl, fun s t => step_flLegal⟩
  exact ⟨_, exec_cmp ra rb s, compareFlags_eq_one_two_or_four _ _, fun f => ⟨_, exec_cmp ra rb (s.setFl f), rfl⟩⟩

/-! ## The registers -/

/-- Settles O41: a handler always answers a next state, and there the table of written registers holds. -/
theorem registersWrittenByTable : Obligations.RegistersWrittenByTable := fun i s =>
  (exec_next i s).imp fun _ h => ⟨h, fun _ => exec_reg_of_not_mayWrite h⟩

theorem SameButRegs.pc_fl_memRead {s t : State} (h : SameButRegs s t) :
    t.pc = s.pc ∧ t.fl = s.fl ∧ MemSame s t := by
  have hst : { t with regs := s.regs } = s := h
  exact ⟨(congrArg State.pc hst :), (congrArg State.fl hst :), congrFun (congrArg State.memRead hst :)⟩

/-- `t` from `s` and `u` from `s'` come of the same updates: they agree outside the registers, and each register holds the
same value in both or is unchanged in both. -/
structure SameEffect (s s' t u : State) : Prop where
  rest : SameButRegs t u
  regs : ∀ q, t.reg q = u.reg q ∨ (t.reg q = s.reg q ∧ u.reg q = s'.reg q)

namespace SameEffect

variable {s s' t u : State}

theorem refl (hs : SameButRegs s s') : SameEffect s s' s s' := ⟨hs, fun _ => .inr ⟨rfl, rfl⟩⟩

/-- A register written with one value in both. -/
theorem setReg (h : SameEffect s s' t u) (r : Reg) (v : Byte) : SameEffect s s' (t.setReg r v) (u.setReg r v) := by
  refine ⟨congrArg (State.setReg · r v) h.rest, fun q => ?_⟩
  by_cases hq : q = r
  · subst hq
    exact .inl (by simp)
  · simpa [hq] using h.regs q

/-- An update that neither reads nor writes registers. -/
theorem update (h : SameEffect s s' t u) (g : State → State)
    (hg : ∀ x f, g { x with regs := f } = { g x with regs := f }) : SameEffect s s' (g t) (g u) := by
  have hregs : ∀ x, (g x).regs = x.regs := fun x => (congrArg State.regs (hg x x.regs) :)
  have hreg : ∀ x q, (g x).reg q = x.reg q := fun x q => congrArg (RegFile.get · q) (hregs x)
  refine ⟨?_, fun q => by simpa only [hreg] using h.regs q⟩
  calc { g u with regs := (g t).regs }
    _ = { g u with regs := t.regs } := by rw [hregs]
    _ = g { u with regs := t.regs } := (hg u t.regs).symm
    _ = g t := congrArg g h.rest

/-- A push of one value at one address. -/
theorem pushByte (hs : SameButRegs s s') (h7 : s'.sp = s.sp) {f g : State → Byte} (hv : g s'.decSp = f s.decSp) :
    SameEffect s s' (s.pushByte f) (s'.pushByte g) := by
  have hdec : s'.decSp = s'.setReg .r7 (s.sp - 1#8) := by rw [State.decSp, h7]
  rw [State.pushByte_eq, State.pushByte_eq, h7, hv, hdec]
  exact ((refl hs).setReg .r7 (s.sp - 1#8)).update (·.memWrite (s.sp - 1#8) (f s.decSp)) fun _ _ => rfl

end SameEffect

/-- The table of read registers (10_state.md R23): from states that agree outside the registers and on the registers of the
instruction's row, it has the same effect. -/
theorem exec_sameEffect (i : Instr) {s s' : State} (hs : SameButRegs s s')
    (h : ∀ q, mayRead i s.fl q → s'.reg q = s.reg q) :
    ∃ t u, exec i s = .next t ∧ exec i s' = .next u ∧ SameEffect s s' t u := by
  have base : SameEffect s s' s s' := .refl hs
  obtain ⟨hpc, hfl, hmem⟩ := hs.pc_fl_memRead
  obtain ⟨hl, -⟩ | hi := instr_legal_or_illegal i
  · cases hl with
    | hlt => exact ⟨_, _, exec_hlt s, exec_hlt s', base.update (·.setRun .halted) fun _ _ => rfl⟩
    | ldi r b => exact ⟨_, _, exec_ldi r b s, exec_ldi r b s', (base.setReg r b).update (·.advancePc 3#8) fun _ _ => rfl⟩
    | prn r =>
      refine ⟨_, _, exec_prn r s, exec_prn r s', ?_⟩
      rw [h r rfl]
      exact base.update (fun x => (x.emit (s.reg r)).advancePc 2#8) fun _ _ => rfl
    | add r q =>
      refine ⟨_, _, exec_add r q s, exec_add r q s', ?_⟩
      rw [h r (.inl rfl), h q (.inr rfl)]
      exact (base.setReg r _).update (·.advancePc 3#8) fun _ _ => rfl
    | mul r q =>
      refine ⟨_, _, exec_mul r q s, exec_mul r q s', ?_⟩
      rw [h r (.inl rfl), h q (.inr rfl)]
      exact (base.setReg r _).update (·.advancePc 3#8) fun _ _ => rfl
    | cmp r q =>
      refine ⟨_, _, exec_cmp r q s, exec_cmp r q s', ?_⟩
      rw [h r (.inl rfl), h q (.inr rfl)]
      exact base.update (fun x => (x.setFl (compareFlags (s.reg r) (s.reg q))).advancePc 3#8) fun _ _ => rfl
    | push r =>
      have h7 : s'.sp = s.sp := h .r7 (.inl rfl)
      have hv : s'.decSp.reg r = s.decSp.reg r := by rw [State.decSp_reg, State.decSp_reg, h7, h r (.inr rfl)]
      exact ⟨_, _, exec_push r s, exec_push r s', (SameEffect.pushByte hs h7 hv).update (·.advancePc 2#8) fun _ _ => rfl⟩
    | pop r =>
      have h7 : s'.sp = s.sp := h .r7 rfl
      have hsp : (s'.setReg r (s.memRead s.sp)).sp = (s.setReg r (s.memRead s.sp)).sp := by
        simp only [State.sp_eq, State.setReg_reg] at h7 ⊢
        rw [h7]
      refine ⟨_, _, exec_pop r s, exec_pop r s', ?_⟩
      rw [h7, hmem, State.incSp, State.incSp, hsp]
      exact ((base.setReg r _).setReg .r7 _).update (·.advancePc 2#8) fun _ _ => rfl
    | call r =>
      have h7 : s'.sp = s.sp := h .r7 (.inl rfl)
      refine ⟨_, _, exec_call r s, exec_call r s', ?_⟩
      rw [h7, h r (.inr rfl)]
      exact (SameEffect.pushByte hs h7 (congrArg (· + 2#8) hpc)).update (·.setPc _) fun _ _ => rfl
    | ret =>
      have h7 : s'.sp = s.sp := h .r7 rfl
      refine ⟨_, _, exec_ret s, exec_ret s', ?_⟩
      rw [State.incSp, State.incSp, State.setPc_sp, State.setPc_sp, h7, hmem]
      exact (base.update (·.setPc (s.memRead s.sp)) fun _ _ => rfl).setReg .r7 _
    | jmp r =>
      refine ⟨_, _, exec_jmp r s, exec_jmp r s', ?_⟩
      rw [h r rfl]
      exact base.update (·.setPc (s.reg r)) fun _ _ => rfl
    | jeq r =>
      have htarget : (if s.fl.getLsbD 0 then s'.reg r else s.pc + 2#8) = if s.fl.getLsbD 0 then s.reg r else s.pc + 2#8 :=
        ite_congr rfl (fun hE => h r ⟨rfl, hE⟩) fun _ => rfl
      refine ⟨_, _, exec_jeq r s, exec_jeq r s', ?_⟩
      rw [hfl, hpc, htarget]
      exact base.update (·.setPc _) fun _ _ => rfl
    | jne r =>
      have htarget : (if !s.fl.getLsbD 0 then s'.reg r else s.pc + 2#8) = if !s.fl.getLsbD 0 then s.reg r else s.pc + 2#8 :=
        ite_congr rfl (fun hE => h r ⟨rfl, (Bool.not_eq_true' _).mp hE⟩) fun _ => rfl
      refine ⟨_, _, exec_jne r s, exec_jne r s', ?_⟩
      rw [hfl, hpc, htarget]
      exact base.update (·.setPc _) fun _ _ => rfl
  · exact ⟨_, _, exec_of_not_wf hi s, exec_of_not_wf hi s', base.update (·.raise .invalidRegisterIndex) fun _ _ => rfl⟩

/-- Settles O42: the register file `f` put into `s` leaves the rest of `s` as it is. -/
theorem registersReadByTable : Obligations.RegistersReadByTable := fun i s f h => by
  obtain ⟨t, u, ht, hu, he⟩ := exec_sameEffect i (s := s) (s' := { s with regs := f }) rfl h
  exact ⟨t, u, ht, hu, he.rest, he.regs⟩

end Sys2Proof.Machine

namespace Sys2Proof.Machine

/-! ## Memory: who writes it, who reads it, and the fetch of a stored byte (20_memory.md R51, R62) -/

/-- A step writes memory in a PUSH or a CALL alone, one byte at the decremented stack pointer. -/
theorem step_mem_cases {s t : State} (h : step s = .next t) :
    t.mem = s.mem ∨
      (s.memRead s.pc = 0x45#8 ∨ s.memRead s.pc = 0x50#8) ∧ ∃ v, t.mem = s.mem.write (s.sp - 1#8) v := by
  obtain ⟨-, ⟨i, _, -, hd, he⟩ | ⟨-, rfl⟩⟩ := step_next_cases h
  · have hop : s.memRead s.pc = i.handler.opcode := dispatch_eq_some hd
    obtain hm | ⟨r, v, rfl | rfl, hm⟩ := exec_mem_cases he
    · exact .inl hm
    · exact .inr ⟨.inl hop, v, hm⟩
    · exact .inr ⟨.inr hop, v, hm⟩
  · exact .inl rfl

theorem memSame_of_mem_eq {s t : State} (h : t.mem = s.mem) : MemSame s t := fun a => congrArg (·.read a) h

theorem memSameExcept_of_mem_eq_write {s t : State} {b v : Byte} (h : t.mem = s.mem.write b v) :
    MemSameExcept b s t := fun a ha => by
  have hta : t.memRead a = (s.mem.write b v).read a := congrArg (·.read a) h
  rw [hta, Memory.read_write, if_neg ha]
  rfl

/-- Settles O39: a step leaves memory as it is or is the one write of a PUSH or a CALL. -/
theorem memoryWrittenByPushAndCallOnly : Obligations.MemoryWrittenByPushAndCallOnly := fun s t h => by
  obtain hm | ⟨hop, v, hm⟩ := step_mem_cases h
  · have hs : MemSame s t := memSame_of_mem_eq hm
    exact ⟨fun _ _ => hs, fun a _ => hs a⟩
  · exact ⟨fun hpush hcall => (hop.elim hpush hcall).elim, memSameExcept_of_mem_eq_write hm⟩

/-- Over another memory, with the byte at the stack pointer the same for POP and RET, an instruction answers the same state
but for memory, and there makes the same write or none. -/
theorem exec_over_mem {i : Instr} {s t : State} (m : Memory) (h : exec i s = .next t)
    (hm : ((∀ a, i ≠ .pop a) ∧ i ≠ .ret) ∨ m.read s.sp = s.memRead s.sp) :
    ∃ m', exec i { s with mem := m } = .next { t with mem := m' } ∧
      ((t.mem = s.mem ∧ m' = m) ∨ ∃ b v, t.mem = s.mem.write b v ∧ m' = m.write b v) := by
  cases exec_eq_next_iff.1 h with
  | illegal hi => exact ⟨m, exec_of_not_wf hi _, .inl ⟨rfl, rfl⟩⟩
  | hlt => exact ⟨m, exec_hlt _, .inl ⟨rfl, rfl⟩⟩
  | ldi r b => exact ⟨m, exec_ldi r b _, .inl ⟨rfl, rfl⟩⟩
  | prn r => exact ⟨m, exec_prn r _, .inl ⟨rfl, rfl⟩⟩
  | add r q => exact ⟨m, exec_add r q _, .inl ⟨rfl, rfl⟩⟩
  | mul r q => exact ⟨m, exec_mul r q _, .inl ⟨rfl, rfl⟩⟩
  | cmp r q => exact ⟨m, exec_cmp r q _, .inl ⟨rfl, rfl⟩⟩
  | push r => exact ⟨_, exec_push r _, .inr ⟨s.sp - 1#8, s.decSp.reg r, rfl, rfl⟩⟩
  | call r => exact ⟨_, exec_call r _, .inr ⟨s.sp - 1#8, s.pc + 2#8, rfl, rfl⟩⟩
  | pop r =>
    have hsp : m.read s.sp = s.memRead s.sp := hm.resolve_left fun hi => hi.1 r.byte rfl
    rw [← hsp]
    exact ⟨m, exec_pop r _, .inl ⟨rfl, rfl⟩⟩
  | ret =>
    have hsp : m.read s.sp = s.memRead s.sp := hm.resolve_left fun hi => hi.2 rfl
    rw [← hsp]
    exact ⟨m, exec_ret _, .inl ⟨rfl, rfl⟩⟩
  | jmp r => exact ⟨m, exec_jmp r _, .inl ⟨rfl, rfl⟩⟩
  | jeq r => exact ⟨m, exec_jeq r _, .inl ⟨rfl, rfl⟩⟩
  | jne r => exact ⟨m, exec_jne r _, .inl ⟨rfl, rfl⟩⟩

/-- One write in two memories: each byte reads the same in both or is as it was in both. -/
theorem Memory.read_write_agree (m n : Memory) (b v a : Byte) :
    (m.write b v).read a = (n.write b v).read a ∨
      ((m.write b v).read a = m.read a ∧ (n.write b v).read a = n.read a) := by
  simp only [Memory.read_write]
  by_cases ha : a = b
  · exact .inl (by rw [if_pos ha, if_pos ha])
  · exact .inr ⟨if_neg ha, if_neg ha⟩

/-- Settles O40: over the other memory the instruction makes the same write, or none. -/
theorem memoryReadByPopAndRetOnly : Obligations.MemoryReadByPopAndRetOnly := fun i s m hm => by
  obtain ⟨t, ht⟩ := exec_next i s
  obtain ⟨m', hu, hmem⟩ := exec_over_mem m ht hm
  refine ⟨t, _, ht, hu, rfl, fun a => ?_⟩
  simp only [State.memRead]
  obtain ⟨hts, rfl⟩ | ⟨b, v, hts, rfl⟩ := hmem <;> rw [hts]
  · exact .inr ⟨rfl, rfl⟩
  · exact Memory.read_write_agree s.mem m b v a

theorem decode_encode_append (i : Instr) (rest : List Byte) : decode (encode i ++ rest) = .ok (i, rest) := by
  rw [encode, List.cons_append, decode_cons, dispatch_opcode]
  exact assemble_operands i rest

/-- A running engine executes the instruction whose encoding is at `pc` (40_cycle_and_halt.md R91). -/
theorem step_of_holds {s : State} {i : Instr} (hr : s.run = .running) (h : s.holds s.pc (encode i) = true) :
    step s = exec i s := by
  have hd : decode s.fetchBytes = .ok (i, []) := by
    rw [State.fetchBytes_of_holds h, ← decode_encode_append i [], List.append_nil]
  simp only [step, State.stepWith, hr, State.dispatchFetched, hd]

theorem operands_length_le (i : Instr) : i.operands.length ≤ 2 := by
  cases i <;> simp [Instr.operands]

/-- Bytes that stand above the one changed byte, and do not come round to it, are still there. -/
theorem State.holds_of_memSameExcept {s t : State} {a b : Byte} {vs : List Byte} (hm : MemSameExcept b s t)
    (hpos : 0 < (a - b).toNat) (hlen : (a - b).toNat + vs.length < 256) (h : s.holds a vs = true) :
    t.holds a vs = true := by
  induction vs generalizing a with
  | nil => rfl
  | cons v vs ih =>
    obtain ⟨hv, hvs⟩ := State.holds_cons.1 h
    rw [List.length_cons] at hlen
    have hab : a ≠ b := by bv_omega
    have hnext : (a + 1#8 - b).toNat = (a - b).toNat + 1 := by bv_omega
    exact State.holds_cons.2 ⟨(hm a hab).trans hv, ih (by omega) (by omega) hvs⟩

/-- The byte a push stored, read where it stored it. -/
@[simp] theorem State.pushByte_memRead_self (s : State) (f : State → Byte) :
    (s.pushByte f).memRead (s.sp - 1#8) = f s.decSp := by
  rw [State.pushByte_memRead, if_pos rfl]

/-- After a push that leaves `pc` at the byte it stored, the next step executes the instruction that begins with that byte
and goes on with the bytes at the old stack pointer (20_memory.md R62). -/
theorem step_pushByte_setPc {s : State} (f : State → Byte) {i : Instr} (hr : s.run = .running)
    (hop : (encode i).head? = some (f s.decSp)) (ho : s.holds s.sp i.operands = true) :
    step ((s.pushByte f).setPc (s.sp - 1#8)) = exec i ((s.pushByte f).setPc (s.sp - 1#8)) := by
  have hir : f s.decSp = i.handler.opcode := (Option.some.inj hop).symm
  have hm : MemSameExcept (s.sp - 1#8) s ((s.pushByte f).setPc (s.sp - 1#8)) := memSameExcept_of_mem_eq_write rfl
  have hoff : (s.sp - (s.sp - 1#8)).toNat = 1 := by bv_omega
  have hlen := operands_length_le i
  have hnext : s.sp - 1#8 + 1#8 = s.sp := BitVec.sub_add_cancel _ _
  refine step_of_holds hr (State.holds_cons.2 ⟨(s.pushByte_memRead_self f).trans hir, ?_⟩)
  rw [State.setPc_pc, hnext]
  exact State.holds_of_memSameExcept hm (by omega) (by omega) ho

/-- Settles O34: PUSH and CALL are a push that leaves `pc` at the byte it stored. -/
theorem storedByteIsFetchedNext : Obligations.StoredByteIsFetchedNext := by
  refine ⟨fun s r hr h hsp => ?_, fun s r hr h htarget => ?_⟩
  · have hstep : step s = .next ((s.pushByte fun t => t.reg r).setPc (s.sp - 1#8)) := by
      rw [step_of_holds (i := .push r.byte) hr h, exec_push, hsp]
      rfl
    have hops : s.pc + 3#8 = s.sp := by bv_omega
    rw [← State.decSp_reg, hops]
    exact ⟨_, hstep, s.pushByte_memRead_self (·.reg r), fun _ => step_pushByte_setPc (·.reg r) hr⟩
  · have hpc : (if r = .r7 then s.sp - 1#8 else s.reg r) = s.sp - 1#8 := by
      obtain rfl | hreg := htarget
      · exact if_pos rfl
      · rw [hreg, ite_self]
    have hstep : step s = .next ((s.pushByte fun _ => s.pc + 2#8).setPc (s.sp - 1#8)) := by
      rw [step_of_holds (i := .call r.byte) hr h, exec_call, hpc]
    exact ⟨_, hstep, s.pushByte_memRead_self (fun _ => s.pc + 2#8), fun _ => step_pushByte_setPc (fun _ => s.pc + 2#8) hr⟩

end Sys2Proof.Machine

namespace Sys2Proof

/-! ## Encoding: the round trip, the opcode values, the operand count (30_encoding.md R70 to R78) -/

/-- Settles O1: the multiplexer selects the handler whose format takes the operand bytes back. -/
theorem decodeOfEncode : Obligations.DecodeOfEncode := Machine.decode_encode_append

/-- Only an opcode of the table selects a handler, and its format takes that handler's operand bytes (R78). -/
theorem eq_encode_append_of_decode {bs : List Byte} {i : Instr} {rest : List Byte} (hd : decode bs = .ok (i, rest)) :
    bs = encode i ++ rest := by
  cases bs with
  | nil => cases hd
  | cons ir bs =>
    rw [decode_cons] at hd
    cases hh : dispatch ir with
    | none => rw [hh] at hd; cases hd
    | some h =>
      rw [hh] at hd
      obtain ⟨rfl, rfl⟩ := assemble_eq_ok hd
      rw [dispatch_eq_some hh, encode, List.cons_append]

/-- Settles O2: what the multiplexer and the format took are the opcode and the operands of the encoding. -/
theorem encodeOfDecode : Obligations.EncodeOfDecode := fun _ _ _ => eq_encode_append_of_decode

theorem takeOp1_ne_unrecognized (ir v : Byte) (mk : Byte → Instr) (bs : List Byte) :
    takeOp1 ir mk bs ≠ .error (.unrecognizedOpcode v) := by
  cases bs <;> nofun

theorem takeOp2_ne_unrecognized (ir v : Byte) (mk : Byte → Byte → Instr) (bs : List Byte) :
    takeOp2 ir mk bs ≠ .error (.unrecognizedOpcode v) :=
  match bs with
  | [] | [_] | _ :: _ :: _ => nofun

/-- A format can reject for missing operand bytes, never for the opcode. -/
theorem assemble_ne_unrecognized (ir v : Byte) (h : Handler) (bs : List Byte) :
    assemble ir h bs ≠ .error (.unrecognizedOpcode v) := by
  cases h with
  | hlt | ret => nofun
  | prn | push | pop | call | jmp | jeq | jne => exact takeOp1_ne_unrecognized _ _ _ _
  | ldi | add | mul | cmp => exact takeOp2_ne_unrecognized _ _ _ _

/-- The rejection of an opcode is the multiplexer's alone. -/
theorem decode_eq_unrecognized_iff (ir : Byte) (bs : List Byte) :
    decode (ir :: bs) = .error (.unrecognizedOpcode ir) ↔ dispatch ir = none := by
  rw [decode_cons]
  cases dispatch ir with
  | none => simp
  | some h => simp [assemble_ne_unrecognized]

/-- Settles O3: no handler is registered exactly for the values outside the 13. -/
theorem otherOpcodesUnrecognized : Obligations.OtherOpcodesUnrecognized :=
  ⟨by decide, fun ir rest => (decode_eq_unrecognized_iff ir rest).trans (dispatch_eq_none_iff ir)⟩

/-- Bits 7..6 as a number are the byte divided by 64: no bit above them is cut off (R71). -/
theorem operandCount_eq_extractLsb (ir : Byte) : operandCount ir = (ir.extractLsb 7 6).toNat := by
  have hlt := ir.isLt
  rw [BitVec.extractLsb_toNat, Nat.shiftRight_eq_div_pow, operandCount]
  omega

theorem encode_length (i : Instr) : (encode i).length = operandCount i.handler.opcode + 1 := by
  rw [encode, List.length_cons, operandCount_opcode]

/-- Settles O4: the count in every opcode of the table is the number of operand bytes of its format. -/
theorem operandCountIsTopTwoBits : Obligations.OperandCountIsTopTwoBits :=
  ⟨fun ir => ⟨operandCount_eq_extractLsb ir, rfl⟩, encode_length, rfl, rfl, rfl, rfl⟩

/-- Settles O6: each word is the encoding of its instruction. -/
theorem tableWordsDecode : Obligations.TableWordsDecode :=
  ⟨decodeOfEncode .hlt [], decodeOfEncode (.ldi 3#8 255#8) [], decodeOfEncode (.prn 5#8) [],
    decodeOfEncode (.add 0#8 1#8) [], decodeOfEncode (.cmp 2#8 7#8) [], decodeOfEncode (.push 6#8) [],
    decodeOfEncode .ret [], decodeOfEncode (.jne 4#8) []⟩

end Sys2Proof

namespace Sys2Proof.Machine

/-! ## The fetched bytes (30_encoding.md R72, 40_cycle_and_halt.md R91) -/

theorem State.fetchBytes_length (s : State) : s.fetchBytes.length = min (operandCount s.ir) 2 + 1 := by
  obtain ⟨hn, hb⟩ | ⟨hn, hb⟩ | ⟨hn, hb⟩ := s.fetchBytes_cases <;>
    simp only [hb, List.length_cons, List.length_nil] <;> omega

/-- The fetch holds memory's own bytes from `pc` upward. -/
theorem State.holds_fetchBytes (s : State) : s.holds s.pc s.fetchBytes = true := by
  obtain ⟨-, hb⟩ | ⟨-, hb⟩ | ⟨-, hb⟩ := s.fetchBytes_cases <;>
    simp [hb, State.holds, State.ir, add_one_one]

/-- A fetch that decodes is the encoding of its instruction, with no byte left over. -/
theorem State.fetchBytes_of_decode {s : State} {i : Instr} {rest : List Byte}
    (hd : decode s.fetchBytes = .ok (i, rest)) : rest = [] ∧ s.fetchBytes = encode i := by
  have hb : s.fetchBytes = encode i ++ rest := eq_encode_append_of_decode hd
  have hir : s.ir = i.handler.opcode := by
    have hh := s.holds_fetchBytes
    rw [hb] at hh
    exact (State.holds_cons.1 hh).1
  have hlen : (encode i ++ rest).length = min i.operands.length 2 + 1 := by
    rw [← hb, s.fetchBytes_length, hir, operandCount_opcode]
  have hrest : rest = [] := by
    have hle := operands_length_le i
    rw [List.length_append, encode_length, operandCount_opcode] at hlen
    exact List.eq_nil_of_length_eq_zero (by omega)
  exact ⟨hrest, by rw [hb, hrest, List.append_nil]⟩

/-- Settles O5: a fetch that decodes is an encoding, and the fetch stands in memory at `pc`. -/
theorem fetchReadsOperandsInAddressOrder : Obligations.FetchReadsOperandsInAddressOrder := fun s => by
  refine ⟨s.fetchBytes_length, s.holds_fetchBytes, fun i rest hd => ?_⟩
  obtain ⟨hrest, hb⟩ := State.fetchBytes_of_decode hd
  have hh : s.holds s.pc (encode i) = true := hb ▸ s.holds_fetchBytes
  exact ⟨hrest, (State.holds_cons.1 hh).2⟩

/-! ## Register operand bytes (30_encoding.md R75) -/

theorem legalRegByte_iff (a : Byte) : legalRegByte a = true ↔ a.toNat < 8 := decide_eq_true_iff

/-- The bytes that name no register are the illegal ones. -/
theorem Reg.ofByte_eq_none_iff (a : Byte) : Reg.ofByte a = none ↔ 8 ≤ a.toNat := by
  rw [← Nat.not_lt, ← legalRegByte_iff]
  obtain ⟨r, -, hr, hl⟩ | ⟨hn, hl⟩ := Reg.ofByte_cases a
  · simp [hr, hl]
  · simp [hn, hl]

/-- Settles O7: `Reg.ofByte` undoes `Reg.byte`, and it answers none exactly on the illegal bytes. -/
theorem registerBytesAreNotMasked : Obligations.RegisterBytesAreNotMasked :=
  ⟨rfl, Reg.ofByte_byte, fun a => ⟨Reg.ofByte_eq_none_iff a, legalRegByte_iff a⟩⟩

/-- Taking a fault changes the run state alone (60_exceptions.md R199). -/
theorem archSame_raise (s : State) (c : FaultCause) : ArchSame s (s.raise c) :=
  ⟨fun _ _ => rfl, rfl, rfl, fun _ => rfl, rfl⟩

/-- Settles O12: the operand check raises the fault before the handler does anything. -/
theorem illegalRegisterByteFaults : Obligations.IllegalRegisterByteFaults := fun _ s hi =>
  ⟨_, exec_of_not_wf hi s, rfl, archSame_raise s _, rfl⟩

end Sys2Proof.Machine

namespace Sys2Proof

/-- The multiplexer reads the handler back from its opcode value, so no two handlers share one. -/
theorem Handler.opcode_injective : Function.Injective Handler.opcode := fun h k he =>
  Option.some.inj ((dispatch_opcode h).symm.trans (he ▸ dispatch_opcode k))

theorem Instr.handler_eq_hlt_iff (i : Instr) : i.handler = .hlt ↔ i = .hlt := by
  cases i <;> simp [Instr.handler]

/-- HLT is the only instruction whose encoding begins with 0x01 (30_encoding.md R76). -/
theorem opcode_eq_one_iff (i : Instr) : i.handler.opcode = 0x01#8 ↔ i = .hlt :=
  (Handler.opcode_injective.eq_iff (b := .hlt)).trans i.handler_eq_hlt_iff

end Sys2Proof

namespace Sys2Proof.Machine

/-! ## The stall (40_cycle_and_halt.md R96, R97) -/

/-- The run state and the reports are no part of what `ArchSame` compares. -/
theorem archSame_run_reports (s : State) (r : RunState) (rs : List Report) :
    ArchSame s { s with run := r, reports := rs } :=
  ⟨fun _ _ => rfl, rfl, rfl, fun _ => rfl, rfl⟩

/-- A stall leaves the run state, `pc` and memory, so the engine stalls again. -/
theorem State.Stalled.stall {s : State} (h : s.Stalled) : (s.stall s.ir).Stalled := h

/-- What a run of a stalled engine answers, whole: one report of the same opcode byte for each step. -/
theorem run_stalled (n : Nat) {s : State} (h : s.Stalled) :
    Host.Core.run core n s =
      .next { s with reports := s.reports ++ List.replicate n (.unrecognizedOpcode s.ir) } := by
  induction n generalizing s with
  | zero => rw [run_zero, List.replicate_zero, List.append_nil]
  | succ n ih =>
    have hir : (s.stall s.ir).ir = s.ir := rfl
    rw [run_succ_of_next (step_stalled h), ih h.stall, hir, State.stall_reports, List.append_assoc,
      List.singleton_append, ← List.replicate_succ]
    rfl

/-- Settles O11: the run of a stalled engine adds reports alone. -/
theorem stallLastsForever : Obligations.StallLastsForever := fun n s h =>
  ⟨_, run_stalled n h, archSame_run_reports s s.run _, h.1⟩

/-- Settles O10: the step of a stalled engine is `State.stall`. -/
theorem unrecognizedOpcodeStalls : Obligations.UnrecognizedOpcodeStalls := fun s h =>
  ⟨_, step_stalled h, archSame_run_reports s s.run _, h.1, rfl⟩

/-! ## HLT (40_cycle_and_halt.md R94, R95) -/

/-- Settles O17: the handler of HLT sets the run state alone. -/
theorem hltResult : Obligations.HltResult := fun s =>
  ⟨_, exec_hlt s, rfl, archSame_run_reports s .halted s.reports, rfl⟩

/-- HLT alone takes a running engine to `Halted`. -/
theorem exec_run_eq_halted_iff {i : Instr} {s t : State} (hr : s.run = .running) (h : exec i s = .next t) :
    t.run = .halted ↔ i = .hlt := by
  constructor
  · intro ht
    obtain hs | ⟨hi, -⟩ | ⟨-, rfl⟩ := exec_run_cases h
    · exact absurd (hr.symm.trans (hs.symm.trans ht)) nofun
    · exact hi
    · exact absurd ht nofun
  · rintro rfl
    exact Host.Outcome.next.inj h ▸ rfl

/-- Settles O16: an instruction halts exactly when it is HLT, whose opcode is its own; a stall never halts, and its opcode is
not that of HLT. -/
theorem onlyHltHalts : Obligations.OnlyHltHalts := fun s t h => by
  obtain ⟨hr, ⟨i, _, -, hd, he⟩ | ⟨hn, rfl⟩⟩ := step_next_cases h
  · have hop : s.memRead s.pc = i.handler.opcode := dispatch_eq_some hd
    rw [hop, opcode_eq_one_iff]
    exact exec_run_eq_halted_iff hr he
  · have hrun : (s.stall s.ir).run ≠ .halted := fun ht => absurd (hr.symm.trans ht) nofun
    have hop : s.memRead s.pc ≠ 0x01#8 := fun ho =>
      (dispatch_eq_none_iff s.ir).1 hn ((show s.ir = 0x01#8 from ho) ▸ opcode_recognized .hlt)
    exact iff_of_false hrun hop

/-! ## The step runs the instruction at `pc` (40_cycle_and_halt.md R91) -/

/-- Memory that holds a list of bytes holds its front. -/
theorem State.holds_of_append {s : State} {a : Byte} {vs ws : List Byte} (h : s.holds a (vs ++ ws) = true) :
    s.holds a vs = true := by
  induction vs generalizing a with
  | nil => rfl
  | cons v vs ih =>
    obtain ⟨hv, hvs⟩ := State.holds_cons.1 h
    exact State.holds_cons.2 ⟨hv, ih hvs⟩

/-- Settles O8: bytes at `pc` that decode begin with the encoding of the instruction, so both clauses are `step_of_holds`. -/
theorem stepRunsInstructionAtPc : Obligations.StepRunsInstructionAtPc := by
  refine ⟨fun _ _ => step_of_holds, fun s i rest hr hd => step_of_holds hr (State.holds_of_append (ws := rest) ?_)⟩
  rw [← eq_encode_append_of_decode hd]
  simp [State.holds, add_one_one]

end Sys2Proof.Machine

namespace Sys2Proof.Machine

/-! ## LDI and PRN (41_load_and_print.md R110 to R112) -/

theorem regsSameExcept_setReg (s : State) (r : Reg) (v : Byte) : RegsSameExcept [r] s (s.setReg r v) := fun q hq =>
  State.setReg_reg_ne s r q v (List.ne_of_not_mem_cons hq)

/-- Settles O18: the handler of LDI writes one register and then moves `pc`. -/
theorem ldiResult : Obligations.LdiResult := fun s r b =>
  ⟨_, exec_ldi r b s, State.setReg_reg_self s r b, rfl, regsSameExcept_setReg s r b, rfl, memSame_of_mem_eq rfl,
    rfl, rfl, rfl⟩

/-- Settles O19: the handler of PRN appends to the output stream and then moves `pc`. -/
theorem prnResult : Obligations.PrnResult := fun s r =>
  ⟨_, exec_prn r s, rfl, rfl, fun _ _ => rfl, rfl, memSame_of_mem_eq rfl, rfl, rfl⟩

/-- Memory that holds a list of bytes holds its back, as many addresses up as the front is long. -/
theorem State.holds_right_of_append {s : State} {a : Byte} {vs ws : List Byte} (h : s.holds a (vs ++ ws) = true) :
    s.holds (a + BitVec.ofNat 8 vs.length) ws = true := by
  induction vs generalizing a with
  | nil => simpa using h
  | cons v vs ih =>
    have hnext : a + BitVec.ofNat 8 (v :: vs).length = a + 1#8 + BitVec.ofNat 8 vs.length := by
      rw [List.length_cons, Nat.add_comm, BitVec.ofNat_add, BitVec.add_assoc]
    rw [hnext]
    exact ih (State.holds_cons.1 h).2

/-- Bytes in memory are still there when every byte of memory reads as before. -/
theorem State.holds_of_memSame {s t : State} {a : Byte} {vs : List Byte} (hm : MemSame s t)
    (h : s.holds a vs = true) : t.holds a vs = true := by
  induction vs generalizing a with
  | nil => rfl
  | cons v vs ih =>
    obtain ⟨hv, hvs⟩ := State.holds_cons.1 h
    exact State.holds_cons.2 ⟨(hm a).trans hv, ih hvs⟩

/-- Settles O31: LDI leaves memory and the run state, so the next step executes the PRN behind it, and PRN finds in the
register what LDI put there. -/
theorem ldiThenPrnPrintsImmediate : Obligations.LdiThenPrnPrintsImmediate := fun s r v hr h => by
  obtain ⟨t, hldi, htreg, htpc, -, -, hmem, htrun, htout, -⟩ := ldiResult s r v
  obtain ⟨u, hprn, huout, hupc, huregs, -⟩ := prnResult t r
  have hbytes : s.holds s.pc (encode (.ldi r.byte v) ++ encode (.prn r.byte)) = true := h
  have hback : t.holds t.pc (encode (.prn r.byte)) = true := by
    rw [htpc]
    exact State.holds_of_memSame hmem (State.holds_right_of_append hbytes)
  refine ⟨t, u, (step_of_holds hr (State.holds_of_append hbytes)).trans hldi,
    (step_of_holds (htrun.trans hr) hback).trans hprn, ?_, ?_, ?_⟩
  · rw [huout, htout, htreg]
  · rw [hupc, htpc, BitVec.add_assoc]
    rfl
  · exact (huregs r List.not_mem_nil).trans htreg

end Sys2Proof.Machine

namespace Sys2Proof.Machine

/-! ## ADD, MUL and CMP (42_alu.md R120 to R126) -/

/-- Settles O14: the only fault a step takes is `InvalidRegisterIndex`. -/
theorem unsupportedAluOpUnreachable : Obligations.UnsupportedAluOpUnreachable := fun _ _ =>
  step_run_ne_unsupportedAluOp

/-- An ALU handler on legal operands whose tag the ALU rejects (R121). -/
theorem aluHandler_byte_of_error {tag : AluTag} {ra rb : Reg} {s : State} {c : FaultCause}
    (h : alu tag ra rb s = .error c) : aluHandler tag ra.byte rb.byte s = .next (s.raise c) := by
  simp only [aluHandler, withRegs_byte, h]

/-- Settles O13: the ALU rejects the tag, and the handler raises the fault in the state it started from. -/
theorem unsupportedAluTagFaults : Obligations.UnsupportedAluTagFaults := fun _ _ _ s =>
  ⟨_, aluHandler_byte_of_error rfl, rfl, archSame_raise s _, rfl⟩

/-- What writing one register and then advancing `pc` leaves unchanged: the frame of ADD and MUL (R120). -/
theorem setReg_advancePc_frame (s : State) (r : Reg) (v k : Byte) :
    let t := (s.setReg r v).advancePc k
    t.pc = s.pc + k ∧ RegsSameExcept [r] s t ∧ t.fl = s.fl ∧ MemSame s t ∧ RunAndHistoriesSame s t :=
  ⟨rfl, regsSameExcept_setReg s r v, rfl, memSame_of_mem_eq rfl, rfl, rfl, rfl⟩

/-- Settles O20: the byte written is the sum, which as a number is taken modulo 256. -/
theorem addResult : Obligations.AddResult := fun s ra rb => by
  refine ⟨_, exec_add ra rb s, ?_, setReg_advancePc_frame s ra _ _⟩
  rw [State.advancePc_reg, State.setReg_reg_self]
  exact BitVec.toNat_add _ _

/-- Settles O21: the byte written is the product, which as a number is taken modulo 256. -/
theorem mulResult : Obligations.MulResult := fun s ra rb => by
  refine ⟨_, exec_mul ra rb s, ?_, setReg_advancePc_frame s ra _ _⟩
  rw [State.advancePc_reg, State.setReg_reg_self]
  exact BitVec.toNat_mul _ _

/-- The flags byte as a function of the unsigned relation (R124): each relation excludes the other two. -/
theorem compareFlags_table (va vb : Byte) :
    (va.toNat = vb.toNat → compareFlags va vb = 0x01#8) ∧ (va.toNat > vb.toNat → compareFlags va vb = 0x02#8) ∧
      (va.toNat < vb.toNat → compareFlags va vb = 0x04#8) := by
  obtain ⟨h, hf⟩ | ⟨h, hf⟩ | ⟨h, hf⟩ := compareFlags_cases va vb
  · exact ⟨fun _ => hf, fun hn => by omega, fun hn => by omega⟩
  · exact ⟨fun hn => by omega, fun _ => hf, fun hn => by omega⟩
  · exact ⟨fun hn => by omega, fun hn => by omega, fun _ => hf⟩

/-- Settles O22: the handler of CMP writes the flags byte and then moves `pc`. -/
theorem cmpResult : Obligations.CmpResult := fun s ra rb => by
  obtain ⟨heq, hgt, hlt⟩ := compareFlags_table (s.reg ra) (s.reg rb)
  exact ⟨_, exec_cmp ra rb s, heq, hgt, hlt, rfl, fun _ _ => rfl, memSame_of_mem_eq rfl, rfl, rfl, rfl⟩

/-- In each of the three flags bytes one of E, G, L is set (R126). -/
theorem compareFlags_exactly_one (va vb : Byte) :
    (flE (compareFlags va vb)).toNat + (flG (compareFlags va vb)).toNat + (flL (compareFlags va vb)).toNat = 1 := by
  obtain h | h | h := compareFlags_eq_one_two_or_four va vb <;> rw [h] <;> rfl

/-- Settles O23: E, G and L are read off the flags byte of each row; equal operands fall in the row of E. -/
theorem cmpSetsExactlyOneFlag : Obligations.CmpSetsExactlyOneFlag := fun s ra rb => by
  obtain ⟨heq, hgt, hlt⟩ := compareFlags_table (s.reg ra) (s.reg rb)
  refine ⟨_, exec_cmp ra rb s, ?_⟩
  rw [State.advancePc_fl, State.setFl_fl]
  refine ⟨fun h => ?_, fun h => ?_, fun h => ?_, compareFlags_exactly_one _ _, ?_⟩
  · rw [heq h]
    exact ⟨rfl, rfl, rfl, rfl⟩
  · rw [hgt h]
    exact ⟨rfl, rfl, rfl, rfl⟩
  · rw [hlt h]
    exact ⟨rfl, rfl, rfl, rfl⟩
  · rintro rfl
    rw [compareFlags_self]
    rfl

end Sys2Proof.Machine

namespace Sys2Proof.Machine

/-! ## PUSH and POP (43_stack.md R140 to R143) -/

/-- Settles O24: the byte PUSH stores is the register as the decrement left it. -/
theorem pushResult : Obligations.PushResult := fun s r =>
  ⟨_, exec_push r s, rfl, (s.pushByte_memRead_self (·.reg r)).trans (s.decSp_reg r),
    memSameExcept_of_mem_eq_write rfl, rfl, regsSameExcept_setReg s .r7 _, rfl, rfl, rfl, rfl⟩

/-- A write to a register is a write to the stack pointer when the register is R7 (10_state.md R22). -/
theorem State.setReg_sp (s : State) (r : Reg) (v : Byte) :
    (s.setReg r v).sp = if r = .r7 then v else s.sp := by
  rw [State.sp_eq, State.setReg_reg]
  simp only [eq_comm, State.sp_eq]

/-- Settles O25: POP increments the stack pointer as the load left it, and the load has written it when the register is
R7. -/
theorem popResult : Obligations.PopResult := fun s r => by
  have hload := s.setReg_sp r (s.memRead s.sp)
  refine ⟨_, exec_pop r s, fun hr => ⟨?_, ?_⟩, fun hr => ?_, rfl, fun q hq => ?_, rfl,
    memSame_of_mem_eq rfl, rfl, rfl, rfl⟩
  · rw [State.advancePc_reg, State.incSp_reg, if_neg hr, State.setReg_reg_self]
  · rw [State.advancePc_sp, State.incSp_sp, hload, if_neg hr]
  · rw [State.advancePc_sp, State.incSp_sp, hload, if_pos hr]
  · refine exec_reg_of_not_mayWrite (exec_pop r s) ?_
    rintro (hqr | rfl)
    · exact hq (by simp [Reg.byte_injective hqr])
    · exact hq (by simp)

/-- Two bytes in memory, neither of them the one changed byte, are still there. -/
theorem State.holds_pair_of_memSameExcept {s t : State} {a b v w : Byte} (hm : MemSameExcept b s t)
    (h0 : b ≠ a) (h1 : b ≠ a + 1#8) (h : s.holds a [v, w] = true) : t.holds a [v, w] = true := by
  obtain ⟨hv, hrest⟩ := State.holds_cons.1 h
  obtain ⟨hw, -⟩ := State.holds_cons.1 hrest
  exact State.holds_cons.2 ⟨(hm a h0.symm).trans hv, State.holds_cons.2 ⟨(hm _ h1.symm).trans hw, rfl⟩⟩

/-- Settles O32: PUSH leaves the bytes of the POP, so the next step executes it, at the stack pointer where PUSH stored. -/
theorem pushThenPopRoundTrip : Obligations.PushThenPopRoundTrip := fun s r q hr h hop hreg => by
  obtain ⟨t, hpush, htsp, hstored, htmem, htpc, htregs, -, htrun, -⟩ := pushResult s r
  obtain ⟨u, hpop, hq, hq7, hupc, huregs, -, humem, -⟩ := popResult t q
  have hbytes : s.holds s.pc (encode (.push r.byte) ++ encode (.pop q.byte)) = true := h
  have hback : t.holds t.pc (encode (.pop q.byte)) = true := by
    have hnext : s.pc + 2#8 + 1#8 = s.pc + 3#8 := BitVec.add_assoc ..
    rw [htpc]
    exact State.holds_pair_of_memSameExcept htmem hop (hnext ▸ hreg) (State.holds_right_of_append hbytes)
  have htop : t.memRead t.sp = if r = .r7 then s.sp - 1#8 else s.reg r := htsp ▸ hstored
  have hcancel : s.sp - 1#8 + 1#8 = s.sp := BitVec.sub_add_cancel ..
  refine ⟨t, u, (step_of_holds hr (State.holds_of_append hbytes)).trans hpush,
    (step_of_holds (htrun.trans hr) hback).trans hpop, fun hrn hqn => ?_, fun hqn => ?_, fun hre hqn => ?_,
    fun hrn hqe => ?_, fun hre hqe => ?_, ?_, fun p hp => ?_, fun a ha => (humem a).trans (htmem a ha)⟩
  · rw [(hq hqn).1, htop, if_neg hrn]
  · rw [(hq hqn).2, htsp, hcancel]
  · rw [(hq hqn).1, htop, if_pos hre]
  · rw [hq7 hqe, htop, if_neg hrn]
  · rw [hq7 hqe, htop, if_pos hre, hcancel]
  · rw [hupc, htpc, BitVec.add_assoc]
    rfl
  · exact (huregs p hp).trans (htregs p (List.not_mem_of_not_mem_cons hp))

end Sys2Proof.Machine

namespace Sys2Proof.Machine

/-! ## CALL, RET and the jumps (44_control_transfer.md R150 to R157) -/

/-- Settles O26: the byte CALL stores is the address after the CALL. -/
theorem callResult : Obligations.CallResult := fun s r =>
  ⟨_, exec_call r s, rfl, s.pushByte_memRead_self (fun _ => s.pc + 2#8), memSameExcept_of_mem_eq_write rfl, rfl,
    regsSameExcept_setReg s .r7 _, rfl, rfl, rfl, rfl⟩

/-- Settles O27: the handler of RET writes `pc` and then the stack pointer. -/
theorem retResult : Obligations.RetResult := fun s =>
  ⟨_, exec_ret s, rfl, rfl, regsSameExcept_setReg s .r7 _, rfl, memSame_of_mem_eq rfl, rfl, rfl, rfl⟩

/-- What replacing `pc` leaves unchanged: the frame of JMP, JEQ and JNE. -/
theorem setPc_frame (s : State) (a : Byte) :
    RegsSameExcept [] s (s.setPc a) ∧ (s.setPc a).fl = s.fl ∧ MemSame s (s.setPc a) ∧
      RunAndHistoriesSame s (s.setPc a) :=
  ⟨fun _ _ => rfl, rfl, memSame_of_mem_eq rfl, rfl, rfl, rfl⟩

/-- Settles O28: the handler of JMP replaces `pc`. -/
theorem jmpResult : Obligations.JmpResult := fun s r => ⟨_, exec_jmp r s, rfl, setPc_frame s _⟩

/-- Settles O29: the handler of JEQ replaces `pc` by what the multiplexer selects on bit 0. -/
theorem jeqResult : Obligations.JeqResult := fun s r =>
  ⟨_, exec_jeq r s, fun h => if_pos h, fun h => if_neg (Bool.eq_false_iff.1 h), setPc_frame s _⟩

/-- Settles O30: the handler of JNE replaces `pc` by what the multiplexer selects on the complement of bit 0. -/
theorem jneResult : Obligations.JneResult := fun s r =>
  ⟨_, exec_jne r s, fun h => if_pos (congrArg not h), fun h => if_neg (Bool.eq_false_iff.1 (congrArg not h)),
    setPc_frame s _⟩

/-- Settles O33: RET finds the return address where CALL stored it, and its increment undoes CALL's decrement. -/
theorem callThenRetReturns : Obligations.CallThenRetReturns := fun s r hr h => by
  obtain ⟨t, hcall, htsp, hstored, -, htpc, -⟩ := callResult s r
  refine ⟨t, (step_of_holds (i := .call r.byte) hr h).trans hcall, fun hr7 => htpc.trans (if_neg hr7),
    fun u hur hop husp htop => ?_⟩
  obtain ⟨v, hret, hvpc, hvsp, -⟩ := retResult u
  have hbytes : u.holds u.pc (encode .ret) = true := State.holds_cons.2 ⟨hop, rfl⟩
  refine ⟨v, (step_of_holds hur hbytes).trans hret, ?_, ?_⟩
  · rw [hvpc, husp, htop, htsp, hstored]
  · rw [hvsp, husp, htsp, BitVec.sub_add_cancel]

/-- A state that a step gives back is what every run from it answers. -/
theorem run_of_step_self {s : State} (h : step s = .next s) (n : Nat) : Host.Core.run core n s = .next s := by
  induction n with
  | zero => exact run_zero s
  | succ n ih => exact (run_succ_of_next h).trans ih

/-- Settles O35: the jump replaces `pc` by itself. -/
theorem jumpToItselfLoops : Obligations.JumpToItselfLoops := fun n s r hr h hreg => by
  have hstep : step s = .next s := by
    rw [step_of_holds (i := .jmp r.byte) hr h, exec_jmp, hreg]
    rfl
  exact run_of_step_self hstep n

/-! ## The branch resolver and the next-pc multiplexer (44_control_transfer.md R156) -/

/-- The resolver answers false outside the five control transfers. -/
theorem taken_eq_false (i : Instr) (fl : Byte)
    (h : ∀ a, i ≠ .jeq a ∧ i ≠ .jne a ∧ i ≠ .jmp a ∧ i ≠ .call a) (hret : i ≠ .ret) : taken i fl = false := by
  cases i with
  | jeq a =>
    obtain ⟨hjeq, -⟩ := h a
    exact absurd rfl hjeq
  | jne a =>
    obtain ⟨-, hjne, -⟩ := h a
    exact absurd rfl hjne
  | jmp a =>
    obtain ⟨-, -, hjmp, -⟩ := h a
    exact absurd rfl hjmp
  | call a =>
    obtain ⟨-, -, -, hcall⟩ := h a
    exact absurd rfl hcall
  | ret => exact absurd rfl hret
  | _ => rfl

/-- The resolver reads bit 0 of the flags alone, so neither G nor L. -/
theorem taken_congr (i : Instr) (fl fl' : Byte) (h : fl.getLsbD 0 = fl'.getLsbD 0) : taken i fl = taken i fl' := by
  cases i with
  | jeq a => exact h
  | jne a => exact congrArg not h
  | _ => rfl

/-- A jump that is taken goes to its register. -/
theorem exec_jump_pc_of_taken (s : State) (r : Reg) (i : Instr)
    (hi : i = .jeq r.byte ∨ i = .jne r.byte ∨ i = .jmp r.byte) (ht : taken i s.fl = true) :
    ∃ t, exec i s = .next t ∧ t.pc = s.reg r := by
  obtain rfl | rfl | rfl := hi
  · exact ⟨_, exec_jeq r s, if_pos ht⟩
  · exact ⟨_, exec_jne r s, if_pos ht⟩
  · exact ⟨_, exec_jmp r s, rfl⟩

/-- Where no transfer is taken, `pc` goes on past the opcode and the operand bytes. -/
theorem exec_pc_of_not_taken {i : Instr} {s t : State} (h : exec i s = .next t) (hi : i ≠ .hlt) (hw : i.wf = true)
    (ht : taken i s.fl = false) : t.pc = s.pc + BitVec.ofNat 8 (i.operands.length + 1) := by
  cases exec_eq_next_iff.1 h with
  | illegal hn => exact absurd (hw.symm.trans hn) nofun
  | hlt => exact absurd rfl hi
  | call | ret | jmp => exact absurd ht nofun
  | jeq | jne => exact if_neg (Bool.eq_false_iff.1 ht)
  | _ => rfl

/-- HLT and the fault on an illegal register operand byte hold `pc`. -/
theorem exec_pc_of_hlt_or_not_wf (s : State) (i : Instr) (h : i = .hlt ∨ i.wf = false) :
    ∃ t, exec i s = .next t ∧ t.pc = s.pc := by
  obtain rfl | hw := h
  · exact ⟨_, exec_hlt s, rfl⟩
  · exact ⟨_, exec_of_not_wf hw s, rfl⟩

/-- A comparison sets bit 0 of the flags exactly when the operands are equal (42_alu.md R126). -/
theorem compareFlags_bit_zero (va vb : Byte) : (compareFlags va vb).getLsbD 0 = decide (va = vb) := by
  obtain ⟨h, hf⟩ | ⟨h, hf⟩ | ⟨h, hf⟩ := compareFlags_cases va vb <;> rw [hf]
  · exact (decide_eq_true (BitVec.eq_of_toNat_eq h)).symm
  · exact (decide_eq_false fun he => Nat.ne_of_gt h (congrArg BitVec.toNat he)).symm
  · exact (decide_eq_false fun he => Nat.ne_of_lt h (congrArg BitVec.toNat he)).symm

/-- After a CMP, JEQ transfers control exactly when the operands were equal, and JNE exactly when they differed. -/
theorem exec_jumps_after_cmp (s : State) (ra rb r : Reg) :
    ∃ t e n, exec (.cmp ra.byte rb.byte) s = .next t ∧ exec (.jeq r.byte) t = .next e ∧
      exec (.jne r.byte) t = .next n ∧ (s.reg ra = s.reg rb → e.pc = t.reg r ∧ n.pc = t.pc + 2#8) ∧
      (s.reg ra ≠ s.reg rb → e.pc = t.pc + 2#8 ∧ n.pc = t.reg r) := by
  obtain ⟨t, hcmp, hbit⟩ : ∃ t, exec (.cmp ra.byte rb.byte) s = .next t ∧
      t.fl.getLsbD 0 = decide (s.reg ra = s.reg rb) :=
    ⟨_, exec_cmp ra rb s, compareFlags_bit_zero _ _⟩
  obtain ⟨e, hjeq, heTaken, heSkip, -⟩ := jeqResult t r
  obtain ⟨n, hjne, hnTaken, hnSkip, -⟩ := jneResult t r
  refine ⟨t, e, n, hcmp, hjeq, hjne, fun heq => ?_, fun hne => ?_⟩
  · have hset := hbit.trans (decide_eq_true heq)
    exact ⟨heTaken hset, hnSkip hset⟩
  · have hclear := hbit.trans (decide_eq_false hne)
    exact ⟨heSkip hclear, hnTaken hclear⟩

/-- Settles O37: the resolver's table, then the multiplexer's inputs one by one, then the two jumps after a CMP. -/
theorem branchResolver : Obligations.BranchResolver :=
  ⟨fun _ _ => ⟨rfl, rfl⟩, fun _ _ => ⟨rfl, rfl, rfl⟩, taken_eq_false, taken_congr, exec_jump_pc_of_taken,
    fun s r => exec_call_pc r s, fun s => ⟨_, exec_ret s, rfl⟩,
    fun s i hi hw ht => (exec_next i s).imp fun _ h => ⟨h, exec_pc_of_not_taken h hi hw ht⟩,
    exec_pc_of_hlt_or_not_wf, fun _ h => ⟨_, step_stalled h, rfl⟩, exec_jumps_after_cmp⟩

end Sys2Proof.Machine

namespace Sys2Proof.Machine

/-! ## The pulses on `out_valid` and `illegal` (50_host_interface.md R170, R177, R178) -/

/-- PRN appends the register its operand byte names, and nothing where it names none. -/
theorem exec_prn_out {a : Byte} {s t : State} (h : exec (.prn a) s = .next t) :
    t.out = s.out ++ ((Reg.ofByte a).map s.reg).toList := by
  cases exec_eq_next_iff.1 h with
  | prn r => rw [Reg.ofByte_byte]; rfl
  | illegal hi => rw [Reg.ofByte_eq_none hi]; exact (List.append_nil _).symm

theorem exec_out_of_handler_ne_prn {i : Instr} {s t : State} (hi : i.handler ≠ .prn) (h : exec i s = .next t) :
    t.out = s.out := by
  obtain ho | ⟨r, hp, -⟩ := exec_out_cases h
  · exact ho
  · exact absurd (congrArg Instr.handler hp) hi

theorem outPulse_of_prn {s : State} {a : Byte} (hr : s.run = .running)
    (h : s.holds s.pc (encode (.prn a)) = true) : outPulse s = (Reg.ofByte a).map s.reg := by
  obtain ⟨hop, hrest⟩ := State.holds_cons.1 h
  obtain ⟨ha, -⟩ := State.holds_cons.1 hrest
  have hd : dispatch s.ir = some .prn := (congrArg dispatch hop).trans (dispatch_opcode .prn)
  rw [outPulse, if_pos ⟨hr, hd⟩, ha]

theorem outPulse_of_dispatch_ne {s : State} (h : dispatch s.ir ≠ some .prn) : outPulse s = none :=
  if_neg fun hp => h hp.2

theorem illegalPulse_of_dispatch_none {s : State} (hr : s.run = .running) (h : dispatch s.ir = none) :
    illegalPulse s = some s.ir := if_pos ⟨hr, h⟩

theorem illegalPulse_of_dispatch_some {s : State} {k : Handler} (h : dispatch s.ir = some k) :
    illegalPulse s = none := if_neg fun hp => Option.some_ne_none k (h.symm.trans hp.2)

/-- A handler emits the pulse of the state it runs from: the port reads PRN's register where PRN does. -/
theorem exec_out_eq_outPulse {s t : State} {i : Instr} {rest : List Byte} (hr : s.run = .running)
    (hd : decode s.fetchBytes = .ok (i, rest)) (hh : dispatch s.ir = some i.handler) (h : exec i s = .next t) :
    t.out = s.out ++ (outPulse s).toList := by
  obtain ⟨-, hb⟩ := State.fetchBytes_of_decode hd
  cases i with
  | prn a =>
    rw [outPulse_of_prn hr (hb ▸ s.holds_fetchBytes)]
    exact exec_prn_out h
  | _ =>
    have hne : dispatch s.ir ≠ some .prn := fun he => absurd (hh.symm.trans he) nofun
    rw [outPulse_of_dispatch_ne hne, exec_out_of_handler_ne_prn (fun he => hne (hh.trans (congrArg some he))) h]
    exact (List.append_nil _).symm

/-- Settles O43: an instruction gives its own pulse on `out_valid` and none on `illegal`, a stall the converse. -/
theorem pulsesMatchHistories : Obligations.PulsesMatchHistories := fun s t h => by
  obtain ⟨hr, ⟨i, rest, hd, hh, he⟩ | ⟨hn, rfl⟩⟩ := step_next_cases h
  · refine ⟨exec_out_eq_outPulse hr hd hh he, ?_⟩
    rw [illegalPulse_of_dispatch_some hh, exec_reports he]
    exact (List.append_nil _).symm
  · have hne : dispatch s.ir ≠ some .prn := fun he => absurd (hn.symm.trans he) nofun
    rw [outPulse_of_dispatch_ne hne, illegalPulse_of_dispatch_none hr hn]
    exact ⟨(List.append_nil _).symm, rfl⟩

/-! ## The host's events (50_host_interface.md R170, R171) -/

theorem hostEvent_load_of_idle {s : State} (h : s.run = .idle) (addr data : Byte) :
    hostEvent (.load addr data) s = s.memWrite addr data := if_pos h

theorem hostEvent_start_of_idle {s : State} (h : s.run = .idle) : hostEvent .start s = s.setRun .running := if_pos h

theorem hostEvent_load_of_not_idle {s : State} (h : s.run ≠ .idle) (addr data : Byte) :
    hostEvent (.load addr data) s = s := if_neg h

theorem hostEvent_start_of_not_idle {s : State} (h : s.run ≠ .idle) : hostEvent .start s = s := if_neg h

/-- Settles O50: in `Idle` load is one memory write and start sets the run state alone. -/
theorem hostActsOnlyInIdle : Obligations.HostActsOnlyInIdle := fun s addr data => by
  refine ⟨rfl, fun hn => ⟨hostEvent_load_of_not_idle hn addr data, hostEvent_start_of_not_idle hn⟩, fun hi => ?_⟩
  rw [hostEvent_load_of_idle hi, hostEvent_start_of_idle hi]
  exact ⟨s.memWrite_memRead_self addr data, memSameExcept_of_mem_eq_write rfl, rfl, rfl,
    archSame_run_reports s .running s.reports⟩

/-! ## The launch (50_host_interface.md R172, R175) -/

/-- Storing bytes changes memory alone. -/
theorem State.storeBytes_eq (s : State) (a : Byte) (vs : List Byte) :
    s.storeBytes a vs = { s with mem := (s.storeBytes a vs).mem } := by
  induction vs generalizing s a with
  | nil => rfl
  | cons v vs ih => exact ih (s.memWrite a v) (a + 1#8)

/-- Each address reads the byte stored at its distance above `a`, and what it read before past the last one; no byte
overwrites an earlier one while they fit in memory. -/
theorem State.storeBytes_memRead (s : State) (a b : Byte) (vs : List Byte) (h : vs.length ≤ 256) :
    (s.storeBytes a vs).memRead b = vs.getD (b - a).toNat (s.memRead b) := by
  induction vs generalizing s a with
  | nil => rfl
  | cons v vs ih =>
    rw [List.length_cons] at h
    have hrec : (s.storeBytes a (v :: vs)).memRead b =
        vs.getD (b - (a + 1#8)).toNat ((s.memWrite a v).memRead b) := ih _ _ (by omega)
    by_cases hba : b = a
    · subst hba
      have hlast : (b - (b + 1#8)).toNat = 255 := by bv_omega
      rw [hrec, hlast, List.getD_eq_default _ _ (by omega), State.memWrite_memRead_self, BitVec.sub_self]
      rfl
    · have hnext : (b - a).toNat = (b - (a + 1#8)).toNat + 1 := by bv_omega
      rw [hrec, State.memWrite_memRead_ne s a v b hba, hnext, List.getD_cons_succ]

/-- In `Idle` the loader stores the image. -/
theorem loadFrom_eq_storeBytes {s : State} (h : s.run = .idle) (a : Byte) (vs : List Byte) :
    loadFrom s a vs = s.storeBytes a vs := by
  induction vs generalizing s a with
  | nil => rfl
  | cons v vs ih =>
    rw [loadFrom, hostEvent_load_of_idle h]
    exact ih (s := s.memWrite a v) h (a + 1#8)

/-- The launch state: the image stored at the entry point of the reset machine, and the engine started. -/
theorem launch_eq_some {image : List Byte} (h : image.length ≤ 256) :
    launch image = some (State.reset.placeAndStart image) := by
  have hidle : (State.reset.storeBytes Config.loadBase image).run = .idle := by rw [State.storeBytes_eq]; rfl
  have hfits : image.length ≤ Config.memSize := h
  rw [launch, if_pos hfits, loadFrom_eq_storeBytes (s := hostEvent .reset State.reset) rfl]
  exact congrArg some (hostEvent_start_of_idle hidle)

theorem launch_eq_none {image : List Byte} (h : 256 < image.length) : launch image = none :=
  if_neg (Nat.not_le.2 h)

/-- All of a placed and started state but its memory. -/
theorem State.placeAndStart_eq (s : State) (bs : List Byte) :
    s.placeAndStart bs = { s with mem := (s.storeBytes s.pc bs).mem, run := .running } := by
  rw [State.placeAndStart, State.storeBytes_eq]
  rfl

theorem State.placeAndStart_reset_memRead {image : List Byte} (h : image.length ≤ 256) (a : Byte) :
    (State.reset.placeAndStart image).memRead a = image.getD a.toNat 0x00#8 := by
  have hread := State.reset.storeBytes_memRead 0x00#8 a image h
  rwa [BitVec.sub_zero] at hread

theorem State.reset_reg (r : Reg) : State.reset.reg r = if r = .r7 then 0xF4#8 else 0x00#8 := by
  cases r <;> rfl

/-- Settles O48: the loader puts each image byte at its own address, and touches nothing but memory. -/
theorem launchState : Obligations.LaunchState := fun image => by
  refine ⟨fun h => ⟨_, launch_eq_some h, State.placeAndStart_reset_memRead h, ?_⟩, launch_eq_none⟩
  rw [State.placeAndStart_eq]
  exact ⟨State.reset_reg, rfl, rfl, rfl, rfl, rfl⟩

/-- Settles O49: the loader keeps the canonical form, and the flags are those of reset. -/
theorem launchMeetsInvariant : Obligations.LaunchMeetsInvariant := fun image s hs => by
  have hfit : image.length ≤ 256 := Nat.not_lt.1 fun hlong => absurd ((launch_eq_none hlong).symm.trans hs) nofun
  obtain rfl : State.reset.placeAndStart image = s := Option.some.inj ((launch_eq_some hfit).symm.trans hs)
  rw [State.placeAndStart_eq]
  exact ⟨State.storeBytes_mem_wf State.reset_mem_wf _ image, .inl rfl, nofun⟩

/-! ## The level ports (50_host_interface.md R170, 60_exceptions.md R191) -/

theorem haltedPort_iff (s : State) : haltedPort s = true ↔ s.run = .halted := decide_eq_true_iff

theorem faultedPort_iff (s : State) : faultedPort s = true ↔ ∃ c, s.run = .faulted c := by
  cases hr : s.run <;> simp [faultedPort, hr]

theorem faultCausePort_invalidRegisterIndex {s : State} (h : s.run = .faulted .invalidRegisterIndex) :
    faultCausePort s = 1#2 := by
  simp only [faultCausePort, h]

theorem faultCausePort_unsupportedAluOp {s : State} (h : s.run = .faulted .unsupportedAluOp) :
    faultCausePort s = 2#2 := by
  simp only [faultCausePort, h]

theorem faultCausePort_of_not_faulted {s : State} (h : ∀ c, s.run ≠ .faulted c) : faultCausePort s = 0#2 := by
  cases hr : s.run with
  | faulted c => exact absurd hr (h c)
  | idle | running | halted => simp only [faultCausePort, hr]

/-- Settles O51, one port and one run state at a time. -/
theorem levelPorts : Obligations.LevelPorts := fun s =>
  ⟨haltedPort_iff s, faultedPort_iff s, faultCausePort_invalidRegisterIndex, faultCausePort_unsupportedAluOp,
    faultCausePort_of_not_faulted⟩

end Sys2Proof.Machine

namespace Sys2Proof.Machine

/-! ## The outcomes of a step (60_exceptions.md R193, R198) -/

/-- The handler of an instruction with legal operands raises nothing. -/
theorem exec_run_ne_faulted {i : Instr} {s t : State} (hr : s.run = .running) (hi : i.wf = true)
    (h : exec i s = .next t) (c : FaultCause) : t.run ≠ .faulted c := by
  intro hc
  obtain hs | ⟨-, hhalt⟩ | ⟨hn, -⟩ := exec_run_cases h
  · exact absurd (hr.symm.trans (hs.symm.trans hc)) nofun
  · exact absurd (hhalt.symm.trans hc) nofun
  · exact Bool.false_ne_true (hn.symm.trans hi)

/-- An instruction on a running engine has one of two outcomes: the fault on an illegal register operand byte, or its
handler's effect (60_exceptions.md R198). -/
theorem exec_fault_or_handler {i : Instr} {s t : State} (hr : s.run = .running) (h : exec i s = .next t) :
    (i.wf = false ∧ ArchSame s t ∧ t.run = .faulted .invalidRegisterIndex) ∨
      (i.wf = true ∧ exec i s = .next t ∧ ∀ c, t.run ≠ .faulted c) := by
  cases hi : i.wf with
  | false =>
    obtain rfl : s.raise .invalidRegisterIndex = t := Host.Outcome.next.inj ((exec_of_not_wf hi s).symm.trans h)
    exact .inl ⟨rfl, archSame_raise s _, rfl⟩
  | true => exact .inr ⟨rfl, h, exec_run_ne_faulted hr hi h⟩

/-- Settles O15: a step that answers either runs the instruction whose encoding stands at `pc`, which faults or completes,
or stalls on an opcode outside the table. -/
theorem oneOutcomePerStep : Obligations.OneOutcomePerStep := fun s t h => by
  obtain ⟨hr, ⟨i, _, hd, hh, he⟩ | ⟨hn, rfl⟩⟩ := step_next_cases h
  · have hop : s.memRead s.pc = i.handler.opcode := dispatch_eq_some hh
    obtain ⟨-, hb⟩ := State.fetchBytes_of_decode hd
    exact .inr ⟨hop ▸ opcode_recognized i.handler, exec_reports he, i, hb ▸ s.holds_fetchBytes,
      exec_fault_or_handler hr he⟩
  · exact .inl ⟨(dispatch_eq_none_iff s.ir).1 hn, archSame_run_reports s s.run _, hr, rfl⟩

end Sys2Proof.Machine
